-- ==== Sys2Proof/Word.lean ====
section
/-! DEFINITION. The word types of the LFSR block: 64-bit registers, bytes of a host bus, bit sequences. -/

namespace Sys2Proof

/-- A host-visible register holds one 64-bit word (`XLEN` = 64, 00_scope.md R6; bit 0 is the least
significant, R8). -/
abbrev Word := BitVec 64

/-- One byte lane of a host bus (20_memory.md R57), or one byte of text (30_encoding.md R87). -/
abbrev Byte := BitVec 8

/-- A bit sequence, position 0 first (00_scope.md R8, 10_state.md R29). -/
abbrev BitSeq := List Bool

end Sys2Proof
end

