-- ==== Sys2Proof/Config.lean ====
section
/-! DEFINITION. What an implementation of the LFSR block fixes: the constants of 00_scope.md R6 and the three
parameters (`MAXLEN`, `GOLD_NMAX`, `BASE`). The block has no free value, so there is no opaque constant here. -/

namespace Sys2Proof

/-- `NBUF`, the number of bit-sequence buffers: fixed (00_scope.md R6, decision D8). -/
abbrev Config.nbuf : Nat := 16

/-- `NUNIT`, the number of LFSR units: fixed (00_scope.md R6, decision D17). -/
abbrev Config.nunit : Nat := 2

/-- `VERSION`, the command-set version: fixed (00_scope.md R2, R6). -/
abbrev Config.version : Nat := 1

/-- The parameters a model takes as an argument (00_scope.md R6; `BASE`: 20_memory.md R51). They are carried by
`State.params`, which no step changes, so every statement about all states is about all parameters (log 4). -/
structure Params where
  /-- `MAXLEN`: the capacity of each buffer in bits, and of the correlation vector (00_scope.md R6). -/
  maxLen : Nat
  /-- `GOLD_NMAX`: the largest `n` the Gold generator accepts (00_scope.md R6). -/
  goldNMax : Nat
  /-- `BASE`: the host address of offset 0 of the register window (20_memory.md R51). -/
  base : Nat
deriving DecidableEq, Repr

/-- The default values of 00_scope.md R6. The spec leaves `BASE` open (20_memory.md R51).
DESIGN CHOICE (log 4): 0 here, and no statement rests on it. -/
def Params.default : Params := { maxLen := 65536, goldNMax := 16, base := 0 }

end Sys2Proof
end

