-- ==== Sys2Proof/Syntax.lean ====
section
/-! DEFINITION. The commands of the block (one constructor per row of spec/opcode_table.json), their mnemonics and
formats, the reasons a value is no command, the slots of the register window, and the host's steps. -/

namespace Sys2Proof

/-- A buffer index, the 4-bit value of `BD`, `BA` or `BB`. Every value is legal (30_encoding.md R73). -/
abbrev BufIx := Fin 16

/-- A unit index, the 1-bit value of `U`. Every value is legal (30_encoding.md R73). -/
abbrev UnitIx := Fin 2

/-- The command formats of 30_encoding.md R72: which fields a command uses. -/
inductive Format where
  | N | U | BD | BA | BAB | BDAB
deriving DecidableEq, Repr

/-- The seventeen mnemonics of 30_encoding.md R75. -/
inductive Op where
  | bnew | bget | bset | blen
  | lnew | lfb | lshift | lrd
  | gold
  | spenc | spdec
  | sig | nxcorr | csum | pacorr | maxoff | cvrd
deriving DecidableEq, Repr

/-- A command with its operands (30_encoding.md R73, R75): `bd` the destination buffer, `ba` and `bb` the source
buffers, `u` the unit. Scalar operands are not part of the command: they come from `A0` to `A4` (R74). -/
inductive Instr where
  | bnew   (bd : BufIx)
  | bget   (ba : BufIx)
  | bset   (bd : BufIx)
  | blen   (ba : BufIx)
  | lnew   (u : UnitIx)
  | lfb    (u : UnitIx)
  | lshift (u : UnitIx)
  | lrd    (u : UnitIx)
  | gold   (bd : BufIx)
  | spenc  (bd ba bb : BufIx)
  | spdec  (bd ba bb : BufIx)
  | sig    (ba : BufIx)
  | nxcorr (ba bb : BufIx)
  | csum   (ba bb : BufIx)
  | pacorr (ba : BufIx)
  | maxoff
  | cvrd
deriving DecidableEq, Repr

/-- Why a 64-bit value is no command: the three cases of 30_encoding.md R77, in the order of R76. -/
inductive Reject where
  /-- `v[63:32]` is not 0. -/
  | upperHalf
  /-- No row of R75 has this `OPC`. -/
  | unknownOpcode
  /-- A bit outside the fields of the row's format is 1. -/
  | strayField
  /-- A list of bytes that is not the eight lanes of one register (20_memory.md R57). -/
  | notEightLanes
deriving DecidableEq, Repr

/-- An operand of assembler text (30_encoding.md R88): `b0` to `b15`, `u0`, `u1`. -/
inductive Operand where
  | buf  (b : BufIx)
  | unit (u : UnitIx)
deriving DecidableEq, Repr

/-- The sixteen slots of the register window (20_memory.md R52). -/
inductive Slot where
  | cmd
  | status
  | arg (k : Fin 5)
  | res (k : Fin 3)
  | cap
  | reserved (k : Fin 5)
deriving DecidableEq, Repr

/-- One step of the world outside the block (30_encoding.md R89, 10_state.md R20): a read or a write by the host, of
`bits` bits at address `addr`, or a reset by the platform (70_reset_and_hazards.md R230). An address is absolute, so
the offset of an access is `addr` less `BASE` (20_memory.md R51). -/
inductive HostStep where
  | read  (bits addr : Nat)
  | write (bits addr : Nat) (data : Word)
  | reset
deriving DecidableEq, Repr

end Sys2Proof
end

