-- ==== Sys2Proof/WellFormed.lean ====
section
/-! DEFINITION. The checks on what the machine is given: the parameters (00_scope.md R7) and the host's steps
(20_memory.md R50, R55, R56). A command needs no check: every index value is legal (30_encoding.md R73) and the types
of `Instr` hold no other. -/

namespace Sys2Proof

/-- The bounds of 00_scope.md R7. A model with values outside them is outside the spec. -/
def Params.wf (p : Params) : Bool :=
  decide (1 ≤ p.goldNMax) && decide (p.goldNMax ≤ 31) && decide (2 ^ p.goldNMax - 1 ≤ p.maxLen) &&
    decide (1 ≤ p.maxLen) && decide (p.maxLen ≤ 2 ^ 31)

/-- An address inside the 128-byte window (20_memory.md R50, R51). -/
def inWindow (p : Params) (addr : Nat) : Bool :=
  decide (p.base ≤ addr) && decide (addr < p.base + 128)

/-- An offset that is a multiple of 8 (20_memory.md R55). -/
def aligned (p : Params) (addr : Nat) : Bool :=
  (addr - p.base) % 8 == 0

/-- An access the spec gives a meaning: 64 bits wide, inside the window, aligned (20_memory.md R50, R55, R56). -/
def accessWf (p : Params) (bits addr : Nat) : Bool :=
  bits == 64 && inWindow p addr && aligned p addr

/-- A host step the spec gives a meaning. -/
def HostStep.wf (p : Params) : HostStep → Bool
  | .read bits addr => accessWf p bits addr
  | .write bits addr _ => accessWf p bits addr
  | .reset => true

/-- A host program (30_encoding.md R90) that makes supported accesses only. -/
def programWf (p : Params) (prog : List HostStep) : Bool :=
  prog.all (HostStep.wf p)

end Sys2Proof
end

