-- ==== Sys2Proof/Decode.lean ====
section
/-! DEFINITION. The opcode map (30_encoding.md R75), the total decoder of a value written to `CMD` (R76, R77), the
encoder (R88), and the byte lanes of a register (20_memory.md R57). -/

namespace Sys2Proof

/-- The opcode value `w[7:0]` of each mnemonic (30_encoding.md R75). -/
def Op.opcode : Op → Word
  | .bnew => 0x01
  | .bget => 0x02
  | .bset => 0x03
  | .blen => 0x04
  | .lnew => 0x10
  | .lfb => 0x11
  | .lshift => 0x12
  | .lrd => 0x13
  | .gold => 0x20
  | .spenc => 0x30
  | .spdec => 0x31
  | .sig => 0x40
  | .nxcorr => 0x41
  | .csum => 0x42
  | .pacorr => 0x43
  | .maxoff => 0x44
  | .cvrd => 0x45

/-- The format of each mnemonic (30_encoding.md R75). -/
def Op.format : Op → Format
  | .bnew => .BD
  | .bget => .BA
  | .bset => .BD
  | .blen => .BA
  | .lnew => .U
  | .lfb => .U
  | .lshift => .U
  | .lrd => .U
  | .gold => .BD
  | .spenc => .BDAB
  | .spdec => .BDAB
  | .sig => .BA
  | .nxcorr => .BAB
  | .csum => .BAB
  | .pacorr => .BA
  | .maxoff => .N
  | .cvrd => .N

/-- The mnemonic as 30_encoding.md R75 spells it. -/
def Op.mnemonic : Op → String
  | .bnew => "BNEW"
  | .bget => "BGET"
  | .bset => "BSET"
  | .blen => "BLEN"
  | .lnew => "LNEW"
  | .lfb => "LFB"
  | .lshift => "LSHIFT"
  | .lrd => "LRD"
  | .gold => "GOLD"
  | .spenc => "SPENC"
  | .spdec => "SPDEC"
  | .sig => "SIG"
  | .nxcorr => "NXCORR"
  | .csum => "CSUM"
  | .pacorr => "PACORR"
  | .maxoff => "MAXOFF"
  | .cvrd => "CVRD"

/-- The rows of 30_encoding.md R75, in its order. -/
def Op.rows : List Op :=
  [.bnew, .bget, .bset, .blen, .lnew, .lfb, .lshift, .lrd, .gold, .spenc, .spdec, .sig, .nxcorr, .csum, .pacorr,
    .maxoff, .cvrd]

/-- `keep(format)` of 30_encoding.md R76: the bits of a word the format uses. -/
def Format.keep : Format → Word
  | .N => 0x000000FF
  | .U => 0x000001FF
  | .BD => 0x00000FFF
  | .BA => 0x0000F0FF
  | .BAB => 0x000FF0FF
  | .BDAB => 0x000FFFFF

/-- The bits of `OPC`, `w[7:0]` (30_encoding.md R71). -/
def opcField (v : Word) : Word := v &&& 0xFF

/-- The 4-bit buffer index whose lowest bit is bit `lo` (30_encoding.md R71). -/
def bufField (v : Word) (lo : Nat) : BufIx := Fin.ofNat 16 (v.toNat >>> lo)

/-- The unit index `U`, bit 8 (30_encoding.md R71). -/
def unitField (v : Word) : UnitIx := Fin.ofNat 2 (v.toNat >>> 8)

/-- The row of R75 with this `OPC`, if there is one. -/
def rowOf (opc : Word) : Option Op := Op.rows.find? fun op => op.opcode == opc

/-- The command of a row with the given fields. A field its format does not use is not passed on (R76). -/
def Op.instr (op : Op) (bd ba bb : BufIx) (u : UnitIx) : Instr :=
  match op with
  | .bnew => .bnew bd
  | .bget => .bget ba
  | .bset => .bset bd
  | .blen => .blen ba
  | .lnew => .lnew u
  | .lfb => .lfb u
  | .lshift => .lshift u
  | .lrd => .lrd u
  | .gold => .gold bd
  | .spenc => .spenc bd ba bb
  | .spdec => .spdec bd ba bb
  | .sig => .sig ba
  | .nxcorr => .nxcorr ba bb
  | .csum => .csum ba bb
  | .pacorr => .pacorr ba
  | .maxoff => .maxoff
  | .cvrd => .cvrd

/-- `decode(v)` of 30_encoding.md R76, total on every 64-bit value. DEDUCED (log 12): R76's pseudocode compares
`w AND NOT keep(format)`, which holds no opcode bit, with `OPC`, and so would refuse every word. Its own next sentence
(mask and match), R72, R77 and the words of R95 say that the bits outside `keep(format)` must be 0. -/
def decode (v : Word) : Except Reject Instr :=
  if v >>> 32 ≠ 0 then .error .upperHalf
  else
    match rowOf (opcField v) with
    | none => .error .unknownOpcode
    | some op =>
      if v &&& ~~~op.format.keep ≠ 0 then .error .strayField
      else .ok (op.instr (bufField v 8) (bufField v 12) (bufField v 16) (unitField v))

/-- The mnemonic of a command. -/
def Instr.op : Instr → Op
  | .bnew _ => .bnew
  | .bget _ => .bget
  | .bset _ => .bset
  | .blen _ => .blen
  | .lnew _ => .lnew
  | .lfb _ => .lfb
  | .lshift _ => .lshift
  | .lrd _ => .lrd
  | .gold _ => .gold
  | .spenc _ _ _ => .spenc
  | .spdec _ _ _ => .spdec
  | .sig _ => .sig
  | .nxcorr _ _ => .nxcorr
  | .csum _ _ => .csum
  | .pacorr _ => .pacorr
  | .maxoff => .maxoff
  | .cvrd => .cvrd

/-- `OPC OR (D << 8) OR (A << 12) OR (B << 16)` of 30_encoding.md R88. -/
def assembleBuffers (op : Op) (bd ba bb : BufIx) : Word :=
  op.opcode ||| (BitVec.ofNat 64 bd.val <<< 8) ||| (BitVec.ofNat 64 ba.val <<< 12) |||
    (BitVec.ofNat 64 bb.val <<< 16)

/-- `OPC OR (U << 8)` of 30_encoding.md R88, for format U. -/
def assembleUnit (op : Op) (u : UnitIx) : Word := op.opcode ||| (BitVec.ofNat 64 u.val <<< 8)

/-- The assembled word of a command (30_encoding.md R88), as the 64-bit value written to `CMD`. -/
def encode : Instr → Word
  | .bnew bd => assembleBuffers .bnew bd 0 0
  | .bget ba => assembleBuffers .bget 0 ba 0
  | .bset bd => assembleBuffers .bset bd 0 0
  | .blen ba => assembleBuffers .blen 0 ba 0
  | .lnew u => assembleUnit .lnew u
  | .lfb u => assembleUnit .lfb u
  | .lshift u => assembleUnit .lshift u
  | .lrd u => assembleUnit .lrd u
  | .gold bd => assembleBuffers .gold bd 0 0
  | .spenc bd ba bb => assembleBuffers .spenc bd ba bb
  | .spdec bd ba bb => assembleBuffers .spdec bd ba bb
  | .sig ba => assembleBuffers .sig 0 ba 0
  | .nxcorr ba bb => assembleBuffers .nxcorr 0 ba bb
  | .csum ba bb => assembleBuffers .csum 0 ba bb
  | .pacorr ba => assembleBuffers .pacorr 0 ba 0
  | .maxoff => assembleBuffers .maxoff 0 0 0
  | .cvrd => assembleBuffers .cvrd 0 0 0

/-- The operands of a command in the order of its text: destination, first source, second source
(30_encoding.md R88). -/
def Instr.operands : Instr → List Operand
  | .bnew bd => [.buf bd]
  | .bget ba => [.buf ba]
  | .bset bd => [.buf bd]
  | .blen ba => [.buf ba]
  | .lnew u => [.unit u]
  | .lfb u => [.unit u]
  | .lshift u => [.unit u]
  | .lrd u => [.unit u]
  | .gold bd => [.buf bd]
  | .spenc bd ba bb => [.buf bd, .buf ba, .buf bb]
  | .spdec bd ba bb => [.buf bd, .buf ba, .buf bb]
  | .sig ba => [.buf ba]
  | .nxcorr ba bb => [.buf ba, .buf bb]
  | .csum ba bb => [.buf ba, .buf bb]
  | .pacorr ba => [.buf ba]
  | .maxoff => []
  | .cvrd => []

/-- The command a row names with operands of its format (30_encoding.md R88); none where the operands do not fit. -/
def Op.withOperands (op : Op) (xs : List Operand) : Option Instr :=
  match op.format, xs with
  | .N, [] => some (op.instr 0 0 0 0)
  | .U, [.unit u] => some (op.instr 0 0 0 u)
  | .BD, [.buf d] => some (op.instr d 0 0 0)
  | .BA, [.buf a] => some (op.instr 0 a 0 0)
  | .BAB, [.buf a, .buf b] => some (op.instr 0 a b 0)
  | .BDAB, [.buf d, .buf a, .buf b] => some (op.instr d a b 0)
  | _, _ => none

/-- Assembling a command from its mnemonic and its operands (30_encoding.md R88). -/
def assemble (mnemonic : String) (xs : List Operand) : Option Word := do
  let op ← Op.rows.find? fun op => op.mnemonic == mnemonic
  let i ← op.withOperands xs
  pure (encode i)

/-- Byte lane `k` of a register: bits `[8k+7 : 8k]` (20_memory.md R57). -/
def lane (v : Word) (k : Fin 8) : Byte := v.extractLsb' (8 * k.val) 8

/-- The eight lanes of a register as a host bus carries it, lowest address first: little-endian (20_memory.md R57). -/
def lanes (v : Word) : List Byte :=
  [lane v 0, lane v 1, lane v 2, lane v 3, lane v 4, lane v 5, lane v 6, lane v 7]

/-- The value of a list of lanes, lowest address first. -/
def lanesNat : List Byte → Nat
  | [] => 0
  | b :: bs => b.toNat + 256 * lanesNat bs

/-- Decoding a `CMD` value from the bytes a host bus carries it in: total on any bytes. -/
def decodeBytes (bs : List Byte) : Except Reject Instr :=
  if bs.length = 8 then decode (BitVec.ofNat 64 (lanesNat bs)) else .error .notEightLanes

/-- The `CMD` value whose lowest `nbits` bits are those of `w`, every bit above them 0. -/
def tableWord (nbits w : Nat) : Word := BitVec.ofNat 64 (w % 2 ^ nbits)

/-- The command the decoder reads from an opcode-table word: bit 0 of the table is bit 0 of `CMD`
(spec/opcode_table.json), laid out in the byte lanes of 20_memory.md R57. -/
def decodeTableWord (nbits w : Nat) : Option Instr :=
  match decodeBytes (lanes (tableWord nbits w)) with
  | .ok i => some i
  | .error _ => none

end Sys2Proof
end

