-- ==== Sys2Proof/Machine/State.lean ====
section
/-! DEFINITION. The state of the LFSR block (the record of 10_state.md R37) with the model's own fields (the
parameters, the host's remaining steps, the values its reads returned), the state after reset (R38), and the reasons a
step can stop. -/

namespace Sys2Proof.Machine

/-- The codes of `STATUS.ERR` (60_exceptions.md R200), 0 to 12. The values 13 to 15 are never written (10_state.md
R25), so the type has no name for them (log 8). -/
inductive ErrCode where
  | ok
  | invalidLength
  | indexOutOfRange
  | invalidWidth
  | invalidSeed
  | invalidTap
  | emptyTaps
  | lengthMismatch
  | notAllocated
  | notConfigured
  | illegalCommand
  | invalidBit
  | capacityExceeded
deriving DecidableEq, Repr

/-- `STATUS` (10_state.md R25): the code of the most recent command, and the sticky error bit. -/
structure Status where
  err : ErrCode
  fault : Bool
deriving DecidableEq, Repr

/-- A bit-sequence buffer (10_state.md R29). `none` is `alloc = 0`: the buffer holds no sequence, and its length and
bits have no value (R31). `some bits` is `alloc = 1` with `len = bits.length` (log 6). -/
abbrev Buffer := Option BitSeq

/-- An LFSR unit (10_state.md R32). -/
structure LfsrUnit where
  cfg : Bool
  state : Word
  taps : Word
  width : Nat
deriving DecidableEq, Repr

/-- The correlation vector (10_state.md R34): entry `s` stands for the value `val[s] / den`. -/
structure CorrVector where
  valid : Bool
  len : Nat
  den : Nat
  val : List Int
deriving DecidableEq, Repr

/-- The machine: the block's complete state (10_state.md R37) and the model's own fields `params` (log 4), `pending`
(log 1) and `observed` (log 2). -/
structure State where
  /-- The parameters: constants of the machine, written by nothing. -/
  params : Params
  /-- The argument registers `A0` to `A4` (R22). -/
  a : Vector Word 5
  /-- The result registers `R0` to `R2` (R23). -/
  r : Vector Word 3
  /-- `CMD`: the last value the host wrote to it (R24). -/
  cmd : Word
  /-- `STATUS` (R25). -/
  status : Status
  /-- The sixteen bit-sequence buffers (R29). -/
  buf : Vector Buffer 16
  /-- The two LFSR units (R32). -/
  lfsr : Vector LfsrUnit 2
  /-- The correlation vector (R34). -/
  cv : CorrVector
  /-- What the host and the platform have still to do, next first (30_encoding.md R90). -/
  pending : List HostStep
  /-- The values the host's reads have returned, oldest first (30_encoding.md R90). -/
  observed : List Word
deriving DecidableEq, Repr

/-- The block never stops with a fault: "The engine raises no process-fatal conditions" (60_exceptions.md R203). An
error of a command is a next state with a code in `STATUS`. So there is no constructor. -/
inductive Fault where
deriving DecidableEq, Repr

/-- Why a step has no meaning. -/
inductive Refusal where
  /-- Raised by `exec` for a command that has no meaning yet. No arm of this model does. Safe. -/
  | notModelled (mnemonic : String)
  /-- Raised by a host access that is not 64 bits wide (20_memory.md R56). Safe: the spec gives it no meaning. -/
  | unsupportedWidth (bits : Nat)
  /-- Raised by a 64-bit host access at an offset that is not a multiple of 8 (20_memory.md R56). Safe: the spec gives
  it no meaning. -/
  | misalignedAccess (addr : Nat)
  /-- Raised by a 64-bit host access outside the 128-byte window (20_memory.md R50, 93_implementation_defined.md B4).
  Safe: it is no access to the block. -/
  | outsideWindow (addr : Nat)
deriving DecidableEq, Repr

/-- What a step of this machine answers. -/
abbrev Result := Host.Outcome State Fault Refusal

/-- An LFSR unit after reset (10_state.md R38). -/
def LfsrUnit.reset : LfsrUnit := { cfg := false, state := 0, taps := 0, width := 0 }

/-- The correlation vector after reset (10_state.md R38). -/
def CorrVector.reset : CorrVector := { valid := false, len := 0, den := 0, val := [] }

/-- The machine right after reset (10_state.md R38), with the default parameters and no host step waiting. -/
def State.reset : State where
  params := Params.default
  a := Vector.replicate 5 0
  r := Vector.replicate 3 0
  cmd := 0
  status := { err := .ok, fault := false }
  buf := Vector.replicate 16 none
  lfsr := Vector.replicate 2 LfsrUnit.reset
  cv := CorrVector.reset
  pending := []
  observed := []

end Sys2Proof.Machine
end

