-- ==== Sys2Proof/Machine/Flags.lean ====
section
/-! DEFINITION. `STATUS`, the only flags of the block (10_state.md R28): the numbers of the error codes
(60_exceptions.md R200), what a command writes (10_state.md R26), and the word the host reads (R25). -/

namespace Sys2Proof.Machine

/-- The number of each code (60_exceptions.md R200). -/
def ErrCode.code : ErrCode → Nat
  | .ok => 0
  | .invalidLength => 1
  | .indexOutOfRange => 2
  | .invalidWidth => 3
  | .invalidSeed => 4
  | .invalidTap => 5
  | .emptyTaps => 6
  | .lengthMismatch => 7
  | .notAllocated => 8
  | .notConfigured => 9
  | .illegalCommand => 10
  | .invalidBit => 11
  | .capacityExceeded => 12

/-- `STATUS` after a command that completes: `ERR <- 0`, `FAULT` unchanged (60_exceptions.md R201). -/
def Status.completed (st : Status) : Status := { st with err := .ok }

/-- `STATUS` after a command that raises: `ERR <- code`, `FAULT <- 1` (60_exceptions.md R202). -/
def Status.raised (_st : Status) (e : ErrCode) : Status := { err := e, fault := true }

/-- `STATUS` as the host reads it: `ERR` in bits 3:0, `FAULT` in bit 4, the rest 0 (10_state.md R25). -/
def Status.toWord (st : Status) : Word := BitVec.ofNat 64 (st.err.code + 16 * st.fault.toNat)

end Sys2Proof.Machine
end

