-- ==== Sys2Proof/Machine/Operands.lean ====
section
/-! DEFINITION. The integer conventions of 00_scope.md R9 and R12, and every operand form: an argument register read
unsigned or signed (30_encoding.md R74), a bit position, a seed and a tap mask (R84, R85). -/

namespace Sys2Proof.Machine

/-- `mask(w) = 2^w - 1` (00_scope.md R9). -/
def mask (w : Nat) : Word := BitVec.ofNat 64 (2 ^ w - 1)

/-- `sint64(v)`: the word as a two's-complement signed integer (00_scope.md R9). -/
def sint64 (v : Word) : Int := v.toInt

/-- `word64(i)`: the two's-complement encoding of an integer, modulo `2^64` (00_scope.md R9). -/
def word64 (i : Int) : Word := BitVec.ofInt 64 i

/-- `zext_64(v)` of an unsigned value (00_scope.md R9). -/
def zext64 (n : Nat) : Word := BitVec.ofNat 64 n

/-- `zext_64` of one bit: 0 or 1 (00_scope.md R9). -/
def bitWord (b : Bool) : Word := zext64 b.toNat

/-- `sext_64(v)`: sign extension of a narrower value (00_scope.md R9). No command of version 1 uses it. -/
def sext64 {n : Nat} (v : BitVec n) : Word := v.signExtend 64

/-- `v[hi:lo]`: the field as an unsigned integer (00_scope.md R8). -/
def field (v : Word) (hi lo : Nat) : Nat := v.toNat / 2 ^ lo % 2 ^ (hi + 1 - lo)

/-- The number of 1 bits among the lowest `k` binary digits of a natural number. -/
def bitCount : Nat → Nat → Nat
  | 0, _ => 0
  | k + 1, n => if n = 0 then 0 else n % 2 + bitCount k (n / 2)

/-- `popcount(v)`: the number of 1 bits (00_scope.md R9). -/
def popcount (v : Word) : Nat := bitCount 64 v.toNat

/-- `parity(v)`: 1 if the number of 1 bits is odd (00_scope.md R9). -/
def parity (v : Word) : Bool := popcount v % 2 == 1

/-- The antipodal map: bit 1 is +1, bit 0 is -1 (00_scope.md R12). -/
def sig (b : Bool) : Int := if b then 1 else -1

/-- `A[k]`: an argument register as it stands when the command executes (30_encoding.md R74). -/
def State.arg (s : State) (k : Fin 5) : Word := s.a[k]

/-- The bit of a sequence at a position below its length (00_scope.md R10, `BufRead`). Above it, the model's false:
no meaning reads there in a state that holds the invariants (log 7). -/
def bitAt (x : BitSeq) (i : Nat) : Bool := x.getD i false

/-- A seed that is not legal at width `w`: 0, or at least `2^w` (30_encoding.md R85). -/
def badSeed (w : Nat) (seed : Word) : Bool := seed == 0 || decide (2 ^ w ≤ seed.toNat)

/-- A tap mask with a tap at or above the width: `t AND NOT mask(w) != 0` (30_encoding.md R84). -/
def badTaps (w : Nat) (t : Word) : Bool := t &&& ~~~mask w != 0

end Sys2Proof.Machine
end

