-- ==== Sys2Proof/Machine/Ops.lean ====
section
/-! DEFINITION. The named operations over the block's state (00_scope.md R10): writing a result register, allocating a
buffer or writing one bit of it, loading a unit, ending a command (60_exceptions.md R201), raising an error (R202: the
ONE shared operation every error goes through; there is no return from it, R209), and reading a source. -/

namespace Sys2Proof.Machine

/-- `R[k] <- v` (00_scope.md R10). -/
def State.setRes (s : State) (k : Fin 3) (v : Word) : State := { s with r := s.r.set k v }

/-- The sequence `buf[b]` holds, if it is allocated. -/
def State.bufBits (s : State) (b : BufIx) : Buffer := s.buf[b]

/-- `BufAlloc(b, n, bits)`: the whole earlier sequence is discarded (00_scope.md R10, 10_state.md R30). -/
def State.bufAlloc (s : State) (b : BufIx) (bits : BitSeq) : State := { s with buf := s.buf.set b (some bits) }

/-- `BufWrite(b, i, v)`: one bit, the length unchanged (00_scope.md R10). -/
def State.bufWrite (s : State) (b : BufIx) (i : Nat) (v : Bool) : State :=
  { s with buf := s.buf.set b (s.buf[b].map fun bits => bits.set i v) }

/-- The LFSR unit `lfsr[u]`. -/
def State.unitAt (s : State) (u : UnitIx) : LfsrUnit := s.lfsr[u]

/-- `lfsr[u] <- x`. -/
def State.setUnit (s : State) (u : UnitIx) (x : LfsrUnit) : State := { s with lfsr := s.lfsr.set u x }

/-- `cv <- x` (10_state.md R34). -/
def State.setCv (s : State) (x : CorrVector) : State := { s with cv := x }

/-- `complete()` (60_exceptions.md R201). -/
def complete (s : State) : Result := .next { s with status := s.status.completed }

/-- `raise Error(e)` (60_exceptions.md R202): only `STATUS` changes. The block saves nothing else and transfers
control nowhere (R208). -/
def raiseError (e : ErrCode) (s : State) : Result := .next { s with status := s.status.raised e }

/-- Read `buf[b]` as a source, or raise `NotAllocated` (10_state.md R31). -/
def withBuf (b : BufIx) (s : State) (k : BitSeq → Result) : Result :=
  match s.bufBits b with
  | none => raiseError .notAllocated s
  | some bits => k bits

/-- Check a position against a length, unsigned, or raise `IndexOutOfRange` (40_bitsequence.md R101). -/
def withIndex (i : Word) (len : Nat) (s : State) (k : Nat → Result) : Result :=
  if len ≤ i.toNat then raiseError .indexOutOfRange s else k i.toNat

/-- Use `lfsr[u]`, or raise `NotConfigured` (10_state.md R33). -/
def withUnit (u : UnitIx) (s : State) (k : LfsrUnit → Result) : Result :=
  if (s.unitAt u).cfg then k (s.unitAt u) else raiseError .notConfigured s

/-- Read the correlation vector, or raise `NotAllocated` (10_state.md R35). -/
def withCv (s : State) (k : CorrVector → Result) : Result :=
  if s.cv.valid then k s.cv else raiseError .notAllocated s

end Sys2Proof.Machine
end

