-- ==== Sys2Proof/Machine/BitSequence.lean ====
section
/-! DEFINITION. The bit-sequence buffer commands BNEW, BGET, BSET, BLEN (40_bitsequence.md). -/

namespace Sys2Proof.Machine

/-- `BNEW bD` (40_bitsequence.md R100): allocate `n = sint64(A0)` zeros. -/
def execBnew (bd : BufIx) (s : State) : Result :=
  let n := sint64 (s.arg 0)
  if n ≤ 0 then raiseError .invalidLength s
  else if (s.params.maxLen : Int) < n then raiseError .capacityExceeded s
  else complete (s.bufAlloc bd (List.replicate n.toNat false))

/-- `BGET bA` (40_bitsequence.md R101): `R0` is the bit at position `A0`. -/
def execBget (ba : BufIx) (s : State) : Result :=
  withBuf ba s fun bits =>
    withIndex (s.arg 0) bits.length s fun i =>
      complete (s.setRes 0 (bitWord (bitAt bits i)))

/-- `BSET bD` (40_bitsequence.md R102): write bit `A1` at position `A0`. -/
def execBset (bd : BufIx) (s : State) : Result :=
  withBuf bd s fun bits =>
    withIndex (s.arg 0) bits.length s fun i =>
      if 1 < (s.arg 1).toNat then raiseError .invalidBit s
      else complete (s.bufWrite bd i ((s.arg 1).getLsbD 0))

/-- `BLEN bA` (40_bitsequence.md R103): `R0` is the length. -/
def execBlen (ba : BufIx) (s : State) : Result :=
  withBuf ba s fun bits => complete (s.setRes 0 (zext64 bits.length))

end Sys2Proof.Machine
end

