-- ==== Sys2Proof/Machine/Correlation.lean ====
section
/-! DEFINITION. The correlation engine: csum, acorr, maxoff (44_correlation.md R161, R165, R167) and the commands SIG,
NXCORR, CSUM, PACORR, MAXOFF, CVRD. -/

namespace Sys2Proof.Machine

/-- `csum(a, b)`: the sum over `i` of `sig(a[i]) * sig(b[i])` (44_correlation.md R161). -/
def csum (a b : BitSeq) : Int := (List.zipWith (fun x y => sig x * sig y) a b).sum

/-- The sequence `[ x[(i + s) mod L] for i in 0 .. L-1 ]` (44_correlation.md R165). -/
def shifted (x : BitSeq) (k : Nat) : BitSeq :=
  (List.range x.length).map fun i => bitAt x ((i + k) % x.length)

/-- `acorr(x)[s]`: the sum over `i` of `sig(x[i]) * sig(x[(i + s) mod L])` (44_correlation.md R165). -/
def acorr (x : BitSeq) (k : Nat) : Int := csum x (shifted x k)

/-- `maxoff(v)`: the largest `|v[i]|` over `i >= 1`, 0 where there is none (44_correlation.md R167). -/
def maxoff (v : List Int) : Nat := (v.drop 1).foldr (fun x m => max x.natAbs m) 0

/-- `SIG bA` (44_correlation.md R162): `R0` is +1 or -1 for the bit at position `A0`. -/
def execSig (ba : BufIx) (s : State) : Result :=
  withBuf ba s fun bits =>
    withIndex (s.arg 0) bits.length s fun i =>
      complete (s.setRes 0 (word64 (sig (bitAt bits i))))

/-- Read two sources of one length, or raise `NotAllocated` (first `BA`, then `BB`) or `LengthMismatch`
(44_correlation.md R163, R164). -/
def withPair (ba bb : BufIx) (s : State) (k : BitSeq → BitSeq → Result) : Result :=
  withBuf ba s fun x =>
    withBuf bb s fun y =>
      if x.length ≠ y.length then raiseError .lengthMismatch s else k x y

/-- `NXCORR bA, bB` (44_correlation.md R163): `R0` is the numerator, `R1` the denominator. -/
def execNxcorr (ba bb : BufIx) (s : State) : Result :=
  withPair ba bb s fun x y =>
    complete ((s.setRes 0 (word64 (csum x y))).setRes 1 (zext64 x.length))

/-- `CSUM bA, bB` (44_correlation.md R164): `R0` is the sum. -/
def execCsum (ba bb : BufIx) (s : State) : Result :=
  withPair ba bb s fun x y => complete (s.setRes 0 (word64 (csum x y)))

/-- `PACORR bA` (44_correlation.md R166): the whole correlation vector is replaced. -/
def execPacorr (ba : BufIx) (s : State) : Result :=
  withBuf ba s fun x =>
    complete (s.setCv
      { valid := true, len := x.length, den := x.length, val := (List.range x.length).map (acorr x) })

/-- `MAXOFF` (44_correlation.md R168). -/
def execMaxoff (s : State) : Result :=
  withCv s fun v =>
    complete (((s.setRes 0 (zext64 (maxoff v.val))).setRes 1 (zext64 v.den)).setRes 2 (zext64 v.len))

/-- `CVRD` (44_correlation.md R169): entry `A0` of the vector. An entry the list does not hold reads 0; there is none
in a state that holds the invariants (log 7). -/
def execCvrd (s : State) : Result :=
  withCv s fun v =>
    withIndex (s.arg 0) v.len s fun i =>
      complete (((s.setRes 0 (word64 (v.val.getD i 0))).setRes 1 (zext64 v.den)).setRes 2 (zext64 v.len))

end Sys2Proof.Machine
end

