-- ==== Sys2Proof/Machine/Lfsr.lean ====
section
/-! DEFINITION. The feedback and shift functions (41_lfsr.md R120, R121) and the LFSR unit commands LNEW, LFB, LSHIFT,
LRD. -/

namespace Sys2Proof.Machine

/-- `feedback(s, t) = parity(s AND t)` (41_lfsr.md R120). -/
def feedback (st taps : Word) : Bool := parity (st &&& taps)

/-- `shift(s, t, w)` (41_lfsr.md R121): the new state and the feedback bit consumed. -/
def shift (st taps : Word) (w : Nat) : Word × Bool :=
  (((st <<< 1) ||| bitWord (feedback st taps)) &&& mask w, feedback st taps)

/-- `LNEW uU` (41_lfsr.md R122): configure the unit with seed `A0`, taps `A1`, width `A2`. -/
def execLnew (u : UnitIx) (s : State) : Result :=
  let w := (s.arg 2).toNat
  if w < 1 ∨ 64 < w then raiseError .invalidWidth s
  else if badSeed w (s.arg 0) then raiseError .invalidSeed s
  else if badTaps w (s.arg 1) then raiseError .invalidTap s
  else complete (s.setUnit u { cfg := true, state := s.arg 0, taps := s.arg 1, width := w })

/-- `LFB uU` (41_lfsr.md R123): `R0` is the feedback bit, the unit unchanged. -/
def execLfb (u : UnitIx) (s : State) : Result :=
  withUnit u s fun x => complete (s.setRes 0 (bitWord (feedback x.state x.taps)))

/-- `LSHIFT uU` (41_lfsr.md R124): shift once, `R0` is the feedback bit consumed. -/
def execLshift (u : UnitIx) (s : State) : Result :=
  withUnit u s fun x =>
    complete ((s.setUnit u { x with state := (shift x.state x.taps x.width).1 }).setRes 0
      (bitWord (shift x.state x.taps x.width).2))

/-- `LRD uU` (41_lfsr.md R126): `R0`, `R1`, `R2` are the unit's state, taps and width. -/
def execLrd (u : UnitIx) (s : State) : Result :=
  withUnit u s fun x =>
    complete (((s.setRes 0 x.state).setRes 1 x.taps).setRes 2 (zext64 x.width))

end Sys2Proof.Machine
end

