-- ==== Sys2Proof/Machine/Gold.lean ====
section
/-! DEFINITION. The Gold-code generator GOLD (42_gold.md). -/

namespace Sys2Proof.Machine

/-- The loop of `gold` (42_gold.md R140) with `k` positions to go: both LFSRs shift once a position, and `acc` holds
the bits made so far, newest first. -/
def goldLoop (n : Nat) (p1 p2 : Word) : Nat → Word → Word → BitSeq → BitSeq × Word × Word
  | 0, x, y, acc => (acc.reverse, x, y)
  | k + 1, x, y, acc =>
    goldLoop n p1 p2 k (shift x p1 n).1 (shift y p2 n).1 (((shift x p1 n).2 ^^ (shift y p2 n).2) :: acc)

/-- `gold(n, p1, s1, p2, s2)` (42_gold.md R140): the code of `2^n - 1` bits and the final states of both LFSRs. -/
def gold (n : Nat) (p1 s1 p2 s2 : Word) : BitSeq × Word × Word := goldLoop n p1 p2 (2 ^ n - 1) s1 s2 []

/-- The error of one (tap mask, seed) pair of `GOLD`, in the order of 42_gold.md R141. -/
def pairError (n : Nat) (t seed : Word) : Option ErrCode :=
  if badSeed n seed then some .invalidSeed
  else if badTaps n t then some .invalidTap
  else if t = 0 then some .emptyTaps
  else none

/-- The effect of a `GOLD` that completes (42_gold.md R141): both units hold their final states, `buf[BD]` the code. -/
def goldEffect (bd : BufIx) (n : Nat) (s : State) : State :=
  let g := gold n (s.arg 1) (s.arg 2) (s.arg 3) (s.arg 4)
  ((s.setUnit 0 { cfg := true, state := g.2.1, taps := s.arg 1, width := n }).setUnit 1
    { cfg := true, state := g.2.2, taps := s.arg 3, width := n }).bufAlloc bd g.1

/-- `GOLD bD` (42_gold.md R141): `n = A0`, `poly1 = A1`, `seed1 = A2`, `poly2 = A3`, `seed2 = A4`. -/
def execGold (bd : BufIx) (s : State) : Result :=
  let n := (s.arg 0).toNat
  if n < 1 ∨ 64 < n then raiseError .invalidWidth s
  else if s.params.goldNMax < n then raiseError .capacityExceeded s
  else
    match pairError n (s.arg 1) (s.arg 2) with
    | some e => raiseError e s
    | none =>
      match pairError n (s.arg 3) (s.arg 4) with
      | some e => raiseError e s
      | none => complete (goldEffect bd n s)

end Sys2Proof.Machine
end

