-- ==== Sys2Proof/Machine/Spreader.lean ====
section
/-! DEFINITION. The XOR spreader and despreader SPENC, SPDEC (43_spreader.md). -/

namespace Sys2Proof.Machine

/-- `spread(d, c) = [ d[i] XOR c[i mod m] for i in 0 .. n-1 ]` (43_spreader.md R150). -/
def spread (d c : BitSeq) : BitSeq :=
  (List.range d.length).map fun i => bitAt d i ^^ bitAt c (i % c.length)

/-- The one operation both commands are (43_spreader.md R151, R152): both sources are read before the destination is
written (00_scope.md R11). -/
def spreadBuffers (bd ba bb : BufIx) (s : State) : Result :=
  withBuf ba s fun d =>
    withBuf bb s fun c => complete (s.bufAlloc bd (spread d c))

/-- `SPENC bD, bA, bB` (43_spreader.md R151). -/
def execSpenc (bd ba bb : BufIx) (s : State) : Result := spreadBuffers bd ba bb s

/-- `SPDEC bD, bA, bB` (43_spreader.md R152): the identical operation. -/
def execSpdec (bd ba bb : BufIx) (s : State) : Result := spreadBuffers bd ba bb s

end Sys2Proof.Machine
end

