-- ==== Sys2Proof/Machine/Dispatch.lean ====
section
/-! DEFINITION. The dispatch: one arm per command, each one call of its meaning (30_encoding.md R75). -/

namespace Sys2Proof.Machine

/-- Execute a command (30_encoding.md R75): its operand registers are the `A0` to `A4` of the state. -/
def exec (i : Instr) (s : State) : Host.Outcome State Fault Refusal :=
  match i with
  -- 40_bitsequence.md
  | .bnew bd => Sys2Proof.Machine.execBnew bd s
  | .bget ba => Sys2Proof.Machine.execBget ba s
  | .bset bd => Sys2Proof.Machine.execBset bd s
  | .blen ba => Sys2Proof.Machine.execBlen ba s
  -- 41_lfsr.md
  | .lnew u => Sys2Proof.Machine.execLnew u s
  | .lfb u => Sys2Proof.Machine.execLfb u s
  | .lshift u => Sys2Proof.Machine.execLshift u s
  | .lrd u => Sys2Proof.Machine.execLrd u s
  -- 42_gold.md
  | .gold bd => Sys2Proof.Machine.execGold bd s
  -- 43_spreader.md
  | .spenc bd ba bb => Sys2Proof.Machine.execSpenc bd ba bb s
  | .spdec bd ba bb => Sys2Proof.Machine.execSpdec bd ba bb s
  -- 44_correlation.md
  | .sig ba => Sys2Proof.Machine.execSig ba s
  | .nxcorr ba bb => Sys2Proof.Machine.execNxcorr ba bb s
  | .csum ba bb => Sys2Proof.Machine.execCsum ba bb s
  | .pacorr ba => Sys2Proof.Machine.execPacorr ba s
  | .maxoff => Sys2Proof.Machine.execMaxoff s
  | .cvrd => Sys2Proof.Machine.execCvrd s

end Sys2Proof.Machine
end

