-- ==== Sys2Proof/Machine/Window.lean ====
section
/-! DEFINITION. The register window (20_memory.md): the map of R52, host reads and writes, the command a write of `CMD`
runs (10_state.md R24), and reset (70_reset_and_hazards.md R230). -/

namespace Sys2Proof.Machine

/-- The register at each offset (20_memory.md R52). -/
def slotAt (off : Nat) : Option Slot :=
  match off with
  | 0x00 => some .cmd
  | 0x08 => some .status
  | 0x10 => some (.arg 0)
  | 0x18 => some (.arg 1)
  | 0x20 => some (.arg 2)
  | 0x28 => some (.arg 3)
  | 0x30 => some (.arg 4)
  | 0x38 => some (.res 0)
  | 0x40 => some (.res 1)
  | 0x48 => some (.res 2)
  | 0x50 => some .cap
  | 0x58 => some (.reserved 0)
  | 0x60 => some (.reserved 1)
  | 0x68 => some (.reserved 2)
  | 0x70 => some (.reserved 3)
  | 0x78 => some (.reserved 4)
  | _ => none

/-- The offset of each register (20_memory.md R52). -/
def slotOffset : Slot → Nat
  | .cmd => 0x00
  | .status => 0x08
  | .arg k => 0x10 + 8 * k.val
  | .res k => 0x38 + 8 * k.val
  | .cap => 0x50
  | .reserved k => 0x58 + 8 * k.val

/-- `CAP` (10_state.md R27): `NBUF` in 7:0, `GOLD_NMAX` in 15:8, `VERSION` in 23:16, 0 in 31:24, `MAXLEN` in 63:32. -/
def capWord (p : Params) : Word :=
  BitVec.ofNat 64 (Config.nbuf + 2 ^ 8 * p.goldNMax + 2 ^ 16 * Config.version + 2 ^ 32 * p.maxLen)

/-- What a host read of a slot returns (20_memory.md R52, R53). -/
def readSlot (s : State) : Slot → Word
  | .cmd => s.cmd
  | .status => s.status.toWord
  | .arg k => s.a[k]
  | .res k => s.r[k]
  | .cap => capWord s.params
  | .reserved _ => 0

/-- A host read (20_memory.md R59): the value is observed, and nothing else changes. -/
def hostRead (sl : Slot) (s : State) : Result :=
  .next { s with observed := s.observed ++ [readSlot s sl] }

/-- Run the value in a `CMD` write (10_state.md R24): it is stored, then executed. A value that is no command raises
`IllegalCommand` (30_encoding.md R76, R77). -/
def runCommand (v : Word) (s : State) : Result :=
  match decode v with
  | .ok i => exec i { s with cmd := v }
  | .error _ => raiseError .illegalCommand { s with cmd := v }

/-- A host write (20_memory.md R52, R59): `CMD` executes, an argument register stores, every other slot ignores it. -/
def hostWrite (sl : Slot) (v : Word) (s : State) : Result :=
  match sl with
  | .cmd => runCommand v s
  | .arg k => .next { s with a := s.a.set k v }
  | .status => .next s
  | .res _ => .next s
  | .cap => .next s
  | .reserved _ => .next s

/-- The slot of a host access, or the reason there is none (20_memory.md R50, R55, R56): first the width, then the
window, then the alignment. -/
def access (bits addr : Nat) (s : State) (k : Slot → Result) : Result :=
  if bits ≠ 64 then .refused (.unsupportedWidth bits)
  else if ¬ inWindow s.params addr then .refused (.outsideWindow addr)
  else
    match slotAt (addr - s.params.base) with
    | none => .refused (.misalignedAccess addr)
    | some sl => k sl

/-- Reset of the block (70_reset_and_hazards.md R230, 10_state.md R38): every piece of the block's state takes its
reset value. The parameters are constants, and what the host has done and has still to do is not the block's
(log 3). -/
def blockReset (s : State) : State :=
  { State.reset with params := s.params, pending := s.pending, observed := s.observed }

/-- One step of the host or the platform (30_encoding.md R89). -/
def hostStep (h : HostStep) (s : State) : Result :=
  match h with
  | .read bits addr => access bits addr s fun sl => hostRead sl s
  | .write bits addr v => access bits addr s fun sl => hostWrite sl v s
  | .reset => .next (blockReset s)

/-- The next host step is taken off the list and performed. With none left the block is idle and holds all its state
(60_exceptions.md R216, log 2). -/
def nextHostStep (s : State) : Result :=
  match s.pending with
  | [] => .next s
  | h :: rest => hostStep h { s with pending := rest }

end Sys2Proof.Machine
end

