-- ==== Sys2Proof/Machine/Step.lean ====
section
/-! DEFINITION. One step of the machine: one access of the host, with the whole command it may trigger
(10_state.md R20, 20_memory.md R60). -/

namespace Sys2Proof.Machine

/-- One step (20_memory.md R60, R61): the host's next access, and if it writes `CMD` the whole command. -/
def step (s : State) : Host.Outcome State Fault Refusal := nextHostStep s

/-- The block fetches nothing (20_memory.md R64): a command comes to it as a host write of `CMD`. This puts that write,
of the given opcode-table word, before what the host has still to do, so that the next step runs it (log 9). -/
def State.withFetchWord (s : State) (nbits w : Nat) : State :=
  { s with pending := .write 64 (s.params.base + slotOffset .cmd) (tableWord nbits w) :: s.pending }

end Sys2Proof.Machine
end

