-- ==== Sys2Proof/Machine/HostText.lean ====
section
/-! DEFINITION. The text conventions of 30_encoding.md (R86, R87), the assembler syntax of a command (R88), the host
steps of a program (R89, R90) and the pseudo-instructions (R91 to R94). The block converts no text: this is the
notation a host program is written in. -/

namespace Sys2Proof.Machine

/-- The character of one bit (30_encoding.md R86). -/
def bitChar (b : Bool) : Char := if b then '1' else '0'

/-- The bit of one character, if it is `'0'` or `'1'` (30_encoding.md R86). -/
def charBit (c : Char) : Option Bool := if c = '1' then some true else if c = '0' then some false else none

/-- The text form of a bit sequence, the leftmost character position 0 (30_encoding.md R86). -/
def renderBits (x : BitSeq) : String := String.ofList (x.map bitChar)

/-- The bit sequence a text form names; none where a character is neither `'0'` nor `'1'` (30_encoding.md R86). -/
def parseBits (t : String) : Option BitSeq := t.toList.mapM charBit

/-- The eight bits of a byte of text, most significant bit first (30_encoding.md R87). -/
def byteBits (c : Byte) : BitSeq := (List.range 8).map fun k => c.getLsbD (7 - k)

/-- Text to bits, byte by byte (30_encoding.md R87). -/
def textBits (t : List Byte) : BitSeq := t.flatMap byteBits

/-- An operand as text (30_encoding.md R88). -/
def operandText : Operand → String
  | .buf b => "b" ++ toString b.val
  | .unit u => "u" ++ toString u.val

/-- A command as text: the mnemonic, then its operands, separated by commas (30_encoding.md R88). -/
def instrText (i : Instr) : String :=
  match i.operands with
  | [] => i.op.mnemonic
  | xs => i.op.mnemonic ++ " " ++ String.intercalate ", " (xs.map operandText)

/-- The word a number in a host step stands for: a negative decimal is its two's-complement word (30_encoding.md
R89). -/
def numberWord (n : Int) : Word := word64 n

/-- The address of a register (20_memory.md R51, R52). -/
def slotAddr (p : Params) (sl : Slot) : Nat := p.base + slotOffset sl

/-- `wr NAME, value` (30_encoding.md R89). -/
def wr (p : Params) (sl : Slot) (v : Word) : HostStep := .write 64 (slotAddr p sl) v

/-- `rd NAME` (30_encoding.md R89). -/
def rd (p : Params) (sl : Slot) : HostStep := .read 64 (slotAddr p sl)

/-- `cmd <command>`: `wr CMD` of its assembled word (30_encoding.md R89). -/
def cmdStep (p : Params) (i : Instr) : HostStep := wr p .cmd (encode i)

/-- `li NAME, value` (30_encoding.md R91). -/
def liSteps (p : Params) (sl : Slot) (v : Word) : List HostStep := [wr p sl v]

/-- The three steps of `loadbits` for one position that holds 1 (30_encoding.md R92). -/
def setBitSteps (p : Params) (bd : BufIx) (i : Nat) : List HostStep :=
  [wr p (.arg 0) (zext64 i), wr p (.arg 1) 1, cmdStep p (.bset bd)]

/-- The steps of `loadbits` that set the 1s of a sequence whose first position is `i` (30_encoding.md R92). -/
def setOnes (p : Params) (bd : BufIx) : Nat → BitSeq → List HostStep
  | _, [] => []
  | i, b :: bs => (if b then setBitSteps p bd i else []) ++ setOnes p bd (i + 1) bs

/-- `loadbits bD, "s"` (30_encoding.md R92). -/
def loadbitsSteps (p : Params) (bd : BufIx) (x : BitSeq) : List HostStep :=
  wr p (.arg 0) (zext64 x.length) :: cmdStep p (.bnew bd) :: setOnes p bd 0 x

/-- `loadtext bD, "t"` (30_encoding.md R93). -/
def loadtextSteps (p : Params) (bd : BufIx) (t : List Byte) : List HostStep := loadbitsSteps p bd (textBits t)

/-- `lnew uU, seed, taps, width` (30_encoding.md R94). -/
def lnewSteps (p : Params) (u : UnitIx) (seed taps width : Word) : List HostStep :=
  [wr p (.arg 0) seed, wr p (.arg 1) taps, wr p (.arg 2) width, cmdStep p (.lnew u)]

/-- `gold bD, n, poly1, seed1, poly2, seed2` (30_encoding.md R94). -/
def goldSteps (p : Params) (bd : BufIx) (n poly1 seed1 poly2 seed2 : Word) : List HostStep :=
  [wr p (.arg 0) n, wr p (.arg 1) poly1, wr p (.arg 2) seed1, wr p (.arg 3) poly2, wr p (.arg 4) seed2,
    cmdStep p (.gold bd)]

/-- Run a host program (30_encoding.md R90): the state after its last step, one step of the machine for each. The
list replaces what the host still had to do. -/
def runProgram (prog : List HostStep) (s : State) : Result :=
  Host.Core.run Sys2Proof.core prog.length { s with pending := prog }

end Sys2Proof.Machine
end

