-- ==== Sys2Proof/Safety.lean ====
section
/-! DEFINITION. What a state the block can be in looks like: the invariants of 00_scope.md R7 and 10_state.md R25, R30,
R33, R35, and what makes a host step safe to take. -/

namespace Sys2Proof.Machine

/-- 10_state.md R30: an allocated buffer holds 1 to `MAXLEN` bits. -/
abbrev Buffer.Inv (maxLen : Nat) (b : Buffer) : Prop := ∀ bits ∈ b, 1 ≤ bits.length ∧ bits.length ≤ maxLen

/-- 10_state.md R33: a configured unit has a legal width and no tap or state bit at or above it, and an unconfigured
one is all 0. -/
abbrev LfsrUnit.Inv (x : LfsrUnit) : Prop :=
  (x.cfg = true → 1 ≤ x.width ∧ x.width ≤ 64 ∧ x.taps &&& ~~~mask x.width = 0 ∧ x.state &&& ~~~mask x.width = 0) ∧
    (x.cfg = false → x.state = 0 ∧ x.taps = 0 ∧ x.width = 0)

/-- 10_state.md R35: the fields of a valid correlation vector, and of an invalid one. -/
abbrev CorrVector.Inv (maxLen : Nat) (v : CorrVector) : Prop :=
  (v.valid = true → 1 ≤ v.len ∧ v.len ≤ maxLen ∧ v.den = v.len ∧ v.val.length = v.len ∧
      v.val[0]? = some (v.len : Int) ∧ ∀ x ∈ v.val, -(v.len : Int) ≤ x ∧ x ≤ v.len) ∧
    (v.valid = false → v.len = 0 ∧ v.den = 0 ∧ v.val = [])

/-- 10_state.md R25, R26: an error code stands only with the sticky bit. -/
abbrev Status.Inv (st : Status) : Prop := st.err ≠ .ok → st.fault = true

/-- The invariant of the block: legal parameters (00_scope.md R7), and every buffer, unit, the correlation vector and
`STATUS` as 10_state.md says. -/
abbrev State.Inv (s : State) : Prop :=
  s.params.wf = true ∧ (∀ b : BufIx, Buffer.Inv s.params.maxLen s.buf[b]) ∧ (∀ u : UnitIx, LfsrUnit.Inv s.lfsr[u]) ∧
    CorrVector.Inv s.params.maxLen s.cv ∧ Status.Inv s.status

/-- The host's next step is one the spec gives a meaning, or there is none: the machine then answers a next state
(20_memory.md R56, 60_exceptions.md R203). -/
abbrev State.nextSupported (s : State) : Prop := ∀ h ∈ s.pending.head?, h.wf s.params = true

end Sys2Proof.Machine
end

