-- ==== Sys2Proof/Certificates/Slice0/Obligations.lean ====
section
/-! DEFINITION. The statements for the provers. `Sys2Proof.Spec` holds the formulas of the spec they are written with,
apart from the operations the machine itself calls. -/

namespace Sys2Proof.Spec

open Sys2Proof.Machine

/-- The state after `complete()` with no other write (60_exceptions.md R201). -/
def completed (s : State) : State := { s with status := { err := .ok, fault := s.status.fault } }

/-- The state after `raise Error(e)` (60_exceptions.md R202). -/
def raised (e : ErrCode) (s : State) : State := { s with status := { err := e, fault := true } }

/-- The length of a buffer, 0 standing for none. -/
def lenOf (b : Buffer) : Nat := (b.map List.length).getD 0

/-- The codes in the order of their numbers (60_exceptions.md R200). -/
def codes : List ErrCode :=
  [.ok, .invalidLength, .indexOutOfRange, .invalidWidth, .invalidSeed, .invalidTap, .emptyTaps, .lengthMismatch,
    .notAllocated, .notConfigured, .illegalCommand, .invalidBit, .capacityExceeded]

/-- The sixteen registers of the window in the order of their offsets (20_memory.md R52, 10_state.md R25, R27). -/
def window (s : State) : Vector Word 16 :=
  #v[s.cmd, BitVec.ofNat 64 (codes.idxOf s.status.err + 16 * s.status.fault.toNat), s.a[0], s.a[1], s.a[2], s.a[3],
    s.a[4], s.r[0], s.r[1], s.r[2],
    BitVec.ofNat 64 (16 + 2 ^ 8 * s.params.goldNMax + 2 ^ 16 * 1 + 2 ^ 32 * s.params.maxLen), 0, 0, 0, 0, 0]

/-- The checks of one (tap mask, seed) pair of GOLD (60_exceptions.md R206). -/
def pairChecks (n : Nat) (taps seed : Word) : List (Bool × ErrCode) :=
  [(decide (seed = 0 ∨ 2 ^ n ≤ seed.toNat), .invalidSeed), (decide (2 ^ n ≤ taps.toNat), .invalidTap),
    (decide (taps = 0), .emptyTaps)]

/-- The checks of each command, in the order of 60_exceptions.md R206. -/
def checks (i : Instr) (s : State) : List (Bool × ErrCode) :=
  match i with
  | .bnew _ =>
    [(decide (s.a[0].toInt ≤ 0), .invalidLength), (decide ((s.params.maxLen : Int) < s.a[0].toInt), .capacityExceeded)]
  | .bget ba | .sig ba =>
    [(s.buf[ba].isNone, .notAllocated), (decide (lenOf s.buf[ba] ≤ s.a[0].toNat), .indexOutOfRange)]
  | .bset bd =>
    [(s.buf[bd].isNone, .notAllocated), (decide (lenOf s.buf[bd] ≤ s.a[0].toNat), .indexOutOfRange),
      (decide (1 < s.a[1].toNat), .invalidBit)]
  | .blen ba | .pacorr ba => [(s.buf[ba].isNone, .notAllocated)]
  | .lnew _ =>
    [(decide (s.a[2].toNat < 1 ∨ 64 < s.a[2].toNat), .invalidWidth),
      (decide (s.a[0] = 0 ∨ 2 ^ s.a[2].toNat ≤ s.a[0].toNat), .invalidSeed),
      (decide (2 ^ s.a[2].toNat ≤ s.a[1].toNat), .invalidTap)]
  | .lfb u | .lshift u | .lrd u => [(!s.lfsr[u].cfg, .notConfigured)]
  | .gold _ =>
    [(decide (s.a[0].toNat < 1 ∨ 64 < s.a[0].toNat), .invalidWidth),
        (decide (s.params.goldNMax < s.a[0].toNat), .capacityExceeded)] ++
      pairChecks s.a[0].toNat s.a[1] s.a[2] ++ pairChecks s.a[0].toNat s.a[3] s.a[4]
  | .spenc _ ba bb | .spdec _ ba bb => [(s.buf[ba].isNone, .notAllocated), (s.buf[bb].isNone, .notAllocated)]
  | .nxcorr ba bb | .csum ba bb =>
    [(s.buf[ba].isNone, .notAllocated), (s.buf[bb].isNone, .notAllocated),
      (decide (lenOf s.buf[ba] ≠ lenOf s.buf[bb]), .lengthMismatch)]
  | .maxoff => [(!s.cv.valid, .notAllocated)]
  | .cvrd => [(!s.cv.valid, .notAllocated), (decide (s.cv.len ≤ s.a[0].toNat), .indexOutOfRange)]

/-- The first check of a command that fails (60_exceptions.md R206). -/
def firstError (i : Instr) (s : State) : Option ErrCode := ((checks i s).find? fun c => c.1).map fun c => c.2

/-- The argument registers a command's rule names (30_encoding.md R75, column "reads"). -/
def reads : Instr → List (Fin 5)
  | .bnew _ | .bget _ | .sig _ | .cvrd => [0]
  | .bset _ => [0, 1]
  | .lnew _ => [0, 1, 2]
  | .gold _ => [0, 1, 2, 3, 4]
  | .blen _ | .lfb _ | .lshift _ | .lrd _ | .spenc _ _ _ | .spdec _ _ _ | .nxcorr _ _ | .csum _ _ | .pacorr _
  | .maxoff => []

/-- The result registers a command's rule names (30_encoding.md R75, column "writes"). -/
def writes : Instr → List (Fin 3)
  | .bget _ | .blen _ | .lfb _ | .lshift _ | .sig _ | .csum _ _ => [0]
  | .nxcorr _ _ => [0, 1]
  | .lrd _ | .maxoff | .cvrd => [0, 1, 2]
  | .bnew _ | .bset _ | .lnew _ | .gold _ | .spenc _ _ _ | .spdec _ _ _ | .pacorr _ => []

/-- The XOR of the state bits at the tap positions (41_lfsr.md R120). -/
def xorTaps (st taps : Word) : Bool :=
  (List.range 64).foldl (fun f k => f ^^ (taps.getLsbD k && st.getLsbD k)) false

/-- `(state << 1 | feedback) mod 2^width` over natural numbers (41_lfsr.md R121). -/
def nextState (st taps : Word) (w : Nat) : Word :=
  BitVec.ofNat 64 ((2 * st.toNat + (xorTaps st taps).toNat) % 2 ^ w)

/-- The state of an LFSR after `j` shifts (42_gold.md R140). -/
def stateAt (seed taps : Word) (w : Nat) : Nat → Word
  | 0 => seed
  | j + 1 => nextState (stateAt seed taps w j) taps w

/-- The Gold code: position `j` is the XOR of the two feedback bits of the `j`-th shift (42_gold.md R140). -/
def goldCode (n : Nat) (p1 s1 p2 s2 : Word) : BitSeq :=
  (List.range (2 ^ n - 1)).map fun j => xorTaps (stateAt s1 p1 n j) p1 ^^ xorTaps (stateAt s2 p2 n j) p2

/-- The state after a command is executed `t` times. -/
def afterTimes (i : Instr) : Nat → State → State
  | 0, s => s
  | t + 1, s =>
    match exec i (afterTimes i t s) with
    | .next s' => s'
    | .fault _ => s
    | .refused _ => s

/-- `a_t`: the bit returned by the `t`-th `LSHIFT` of a unit, `t` counted from 0 (41_lfsr.md R127). -/
def outputBit (u : UnitIx) (s : State) (t : Nat) : Bool := (afterTimes (.lshift u) (t + 1) s).r[0].getLsbD 0

/-- `a_{t-1-k}` of 41_lfsr.md R127, with `a_{-1-k} = s[k]` for the seed `s`. -/
def history (u : UnitIx) (s : State) (t k : Nat) : Bool :=
  if k < t then outputBit u s (t - 1 - k) else s.lfsr[u].state.getLsbD (k - t)

/-- The antipodal map (00_scope.md R12). -/
def antipodal (b : Bool) : Int := if b then 1 else -1

/-- The number of positions where two sequences hold different bits (44_correlation.md R161). -/
def disagreements (x y : BitSeq) : Nat := (x.zip y).countP fun p => p.1 != p.2

/-- The number of positions where two sequences hold the same bit (44_correlation.md R161). -/
def agreements (x y : BitSeq) : Nat := (x.zip y).countP fun p => p.1 == p.2

/-- The correlation sum `L - 2 * disagreements` (44_correlation.md R161). -/
def corrSum (x y : BitSeq) : Int := (x.length : Int) - 2 * (disagreements x y : Int)

/-- `acorr(x)[k]` as the sum over all positions (44_correlation.md R165). -/
def autocorr (x : BitSeq) (k : Nat) : Int :=
  ∑ i : Fin x.length,
    antipodal x[i] * antipodal (x[(i.val + k) % x.length]'(Nat.mod_lt _ (Nat.lt_of_le_of_lt (Nat.zero_le _) i.isLt)))

/-- One row of spec/opcode_table.json: mnemonic, match, mask. -/
structure TableRow where
  mnemonic : String
  matchBits : Word
  maskBits : Word

/-- spec/opcode_table.json. -/
def table : List TableRow :=
  [⟨"BNEW", 0x0000000000000001, 0xFFFFFFFFFFFFF0FF⟩, ⟨"BGET", 0x0000000000000002, 0xFFFFFFFFFFFF0FFF⟩,
    ⟨"BSET", 0x0000000000000003, 0xFFFFFFFFFFFFF0FF⟩, ⟨"BLEN", 0x0000000000000004, 0xFFFFFFFFFFFF0FFF⟩,
    ⟨"LNEW", 0x0000000000000010, 0xFFFFFFFFFFFFFEFF⟩, ⟨"LFB", 0x0000000000000011, 0xFFFFFFFFFFFFFEFF⟩,
    ⟨"LSHIFT", 0x0000000000000012, 0xFFFFFFFFFFFFFEFF⟩, ⟨"LRD", 0x0000000000000013, 0xFFFFFFFFFFFFFEFF⟩] ++
  [⟨"GOLD", 0x0000000000000020, 0xFFFFFFFFFFFFF0FF⟩, ⟨"SPENC", 0x0000000000000030, 0xFFFFFFFFFFF000FF⟩,
    ⟨"SPDEC", 0x0000000000000031, 0xFFFFFFFFFFF000FF⟩, ⟨"SIG", 0x0000000000000040, 0xFFFFFFFFFFFF0FFF⟩,
    ⟨"NXCORR", 0x0000000000000041, 0xFFFFFFFFFFF00FFF⟩, ⟨"CSUM", 0x0000000000000042, 0xFFFFFFFFFFF00FFF⟩,
    ⟨"PACORR", 0x0000000000000043, 0xFFFFFFFFFFFF0FFF⟩, ⟨"MAXOFF", 0x0000000000000044, 0xFFFFFFFFFFFFFFFF⟩,
    ⟨"CVRD", 0x0000000000000045, 0xFFFFFFFFFFFFFFFF⟩]

/-- The bits of a word outside the fields of a format (30_encoding.md R72): `OPC` is bits 7:0 in every format. -/
def usedBits : Format → Nat → Bool
  | .N, k => k < 8
  | .U, k => k < 9
  | .BD, k => k < 12
  | .BA, k => k < 8 || (12 ≤ k && k < 16)
  | .BAB, k => k < 8 || (12 ≤ k && k < 20)
  | .BDAB, k => k < 20

/-- The opcode map of 30_encoding.md R75: opcode value and format. -/
def opcodeMap : List (Nat × Format) :=
  [(0x01, .BD), (0x02, .BA), (0x03, .BD), (0x04, .BA), (0x10, .U), (0x11, .U), (0x12, .U), (0x13, .U), (0x20, .BD),
    (0x30, .BDAB), (0x31, .BDAB), (0x40, .BA), (0x41, .BAB), (0x42, .BAB), (0x43, .BA), (0x44, .N), (0x45, .N)]

/-- 30_encoding.md R95: the text of a command, as mnemonic and operands, its word, and the command itself. -/
def assembledWords : List (String × List Operand × Word × Instr) :=
  [("BNEW", [.buf 0], 0x00000001, .bnew 0), ("BNEW", [.buf 5], 0x00000501, .bnew 5),
    ("BGET", [.buf 3], 0x00003002, .bget 3), ("BSET", [.buf 5], 0x00000503, .bset 5),
    ("BLEN", [.buf 15], 0x0000F004, .blen 15), ("LNEW", [.unit 0], 0x00000010, .lnew 0),
    ("LNEW", [.unit 1], 0x00000110, .lnew 1), ("LFB", [.unit 1], 0x00000111, .lfb 1),
    ("LSHIFT", [.unit 0], 0x00000012, .lshift 0), ("LRD", [.unit 1], 0x00000113, .lrd 1)] ++
  [("GOLD", [.buf 1], 0x00000120, .gold 1), ("SPENC", [.buf 2, .buf 0, .buf 1], 0x00010230, .spenc 2 0 1),
    ("SPDEC", [.buf 3, .buf 2, .buf 1], 0x00012331, .spdec 3 2 1), ("SIG", [.buf 4], 0x00004040, .sig 4),
    ("NXCORR", [.buf 1, .buf 2], 0x00021041, .nxcorr 1 2), ("CSUM", [.buf 0, .buf 0], 0x00000042, .csum 0 0),
    ("PACORR", [.buf 1], 0x00001043, .pacorr 1), ("MAXOFF", [], 0x00000044, .maxoff),
    ("CVRD", [], 0x00000045, .cvrd)]

/-- Every piece of the block's state at its reset value (10_state.md R38). -/
def AfterReset (t : State) : Prop :=
  t.a = #v[0, 0, 0, 0, 0] ∧ t.r = #v[0, 0, 0] ∧ t.cmd = 0 ∧ t.status = { err := .ok, fault := false } ∧
    t.buf = Vector.replicate 16 none ∧
    t.lfsr = Vector.replicate 2 { cfg := false, state := 0, taps := 0, width := 0 } ∧
    t.cv = { valid := false, len := 0, den := 0, val := [] }

/-- An illegal value of `CMD`, the three cases of 30_encoding.md R77. -/
def Illegal (v : Word) : Prop :=
  (∃ k, 32 ≤ k ∧ v.getLsbD k = true) ∨
    (∀ row ∈ opcodeMap, row.1 ≠ v.toNat % 256) ∨
      ∃ row ∈ opcodeMap, row.1 = v.toNat % 256 ∧ ∃ k, k < 32 ∧ usedBits row.2 k = false ∧ v.getLsbD k = true

end Sys2Proof.Spec

open Sys2Proof Sys2Proof.Machine Sys2Proof.Spec

/-! ### Encoding (30_encoding.md) -/

/-- Every command, with every operand at every value, decodes from its assembled word. -/
def Obligations.EncodeThenDecode : Prop := ∀ i : Instr, decode (encode i) = .ok i

/-- A value is a command in one way only: it is that command's assembled word. -/
def Obligations.DecodedValueIsItsEncoding : Prop := ∀ (v : Word) (i : Instr), decode v = .ok i → v = encode i

/-- A value is a command exactly when it fits a row's mask and match, and it is that row's command: the last sentence of
R76. The pseudocode of R76 says otherwise, and the model follows the sentence (log 12). -/
def Obligations.DecodeFollowsOpcodeTable : Prop :=
  ∀ v : Word,
    (∀ i, decode v = .ok i → ∃ row ∈ table, row.mnemonic = i.op.mnemonic ∧ v &&& row.maskBits = row.matchBits) ∧
      (∀ row ∈ table, v &&& row.maskBits = row.matchBits → ∃ i, decode v = .ok i ∧ i.op.mnemonic = row.mnemonic)

/-- R95: each text of the table assembles to its word, and the word decodes to the command the text names. -/
def Obligations.AssembledWordsDecode : Prop :=
  ∀ row ∈ assembledWords, assemble row.1 row.2.1 = some row.2.2.1 ∧ decode row.2.2.1 = .ok row.2.2.2

/-- R77, R78: writing an illegal value stores it and raises `IllegalCommand` with no other effect, and a value is a
command exactly when it is not illegal. -/
def Obligations.IllegalValuesRaiseIllegalCommand : Prop :=
  (∀ (s : State) (v : Word) (rest : List HostStep), s.pending = .write 64 s.params.base v :: rest → Illegal v →
    step s = .next (raised .illegalCommand { s with cmd := v, pending := rest })) ∧
    ∀ v : Word, (∃ i, decode v = .ok i) ↔ ¬ Illegal v

/-- R24: a step whose host access writes a command to `CMD` stores the value and executes the decoded command on the
state with that access taken off the list. -/
def Obligations.StepRunsDecodedCommand : Prop :=
  ∀ (s : State) (v : Word) (i : Instr) (rest : List HostStep),
    s.pending = .write 64 s.params.base v :: rest → decode v = .ok i →
      step s = exec i { s with cmd := v, pending := rest }

/-- R88: assembling a command's own mnemonic and operands gives its word, and nothing that assembles is another
command's text. -/
def Obligations.AssembledTextIsEncoding : Prop :=
  (∀ i : Instr, assemble i.op.mnemonic i.operands = some (encode i)) ∧
    ∀ (m : String) (xs : List Operand) (w : Word),
      assemble m xs = some w → ∃ i : Instr, decode w = .ok i ∧ i.op.mnemonic = m ∧ i.operands = xs

/-! ### The register window (20_memory.md, 10_state.md) -/

/-- R57: lane `k` is bits `[8k+7 : 8k]`, and a value read back from its lanes decodes as the value. -/
def Obligations.ByteLanesAreLittleEndian : Prop :=
  ∀ v : Word,
    (∀ (k : Fin 8) (j : Nat), j < 8 → ((lanes v)[k.val]?.map fun b => b.getLsbD j) = some (v.getLsbD (8 * k.val + j))) ∧
      (lanes v).length = 8 ∧ decodeBytes (lanes v) = decode v

/-- R52, R53: the register map. A read of slot `k`, at offset `8k`, returns its register and changes nothing of the
block. A write to `CMD` stores the value and executes it, a write to `A0` to `A4` stores the value, and a write to any
other slot is ignored. -/
def Obligations.WindowFollowsRegisterMap : Prop :=
  ∀ (s : State) (k : Fin 16) (rest : List HostStep),
    (s.pending = .read 64 (s.params.base + 8 * k.val) :: rest →
      step s = .next { s with pending := rest, observed := s.observed ++ [(window s)[k]] }) ∧
      ∀ v : Word, s.pending = .write 64 (s.params.base + 8 * k.val) v :: rest →
        (k = 0 → ∀ i, decode v = .ok i → step s = exec i { s with cmd := v, pending := rest }) ∧
          (k = 0 → (∀ i, decode v ≠ .ok i) →
            step s = .next (raised .illegalCommand { s with cmd := v, pending := rest })) ∧
          (∀ j : Fin 5, k.val = j.val + 2 → step s = .next { s with pending := rest, a := s.a.set j v }) ∧
          (k = 1 ∨ 7 ≤ k.val → step s = .next { s with pending := rest })

/-- R27: the fields of `CAP` under the bounds of R7, and its value at the defaults. -/
def Obligations.CapHoldsParameters : Prop :=
  (∀ p : Params, p.wf = true →
    (capWord p).toNat % 2 ^ 8 = 16 ∧ (capWord p).toNat / 2 ^ 8 % 2 ^ 8 = p.goldNMax ∧
      (capWord p).toNat / 2 ^ 16 % 2 ^ 8 = 1 ∧ (capWord p).toNat / 2 ^ 24 % 2 ^ 8 = 0 ∧
      (capWord p).toNat / 2 ^ 32 = p.maxLen) ∧
    capWord Params.default = 0x0001000000011010

/-- An access to the window that is not 64 bits wide, or at an offset that is not a multiple of 8, is refused (R56). The
names of the two refusals, and that an access wrong in both ways is refused for its width, are the model's choice
(DESIGN CHOICE, log 5). -/
def Obligations.UnsupportedAccessIsRefused : Prop :=
  ∀ (s : State) (h : HostStep) (bits addr : Nat) (v : Word) (rest : List HostStep),
    s.pending = h :: rest → h = .read bits addr ∨ h = .write bits addr v →
      s.params.base ≤ addr → addr < s.params.base + 128 →
        (bits ≠ 64 → step s = .refused (.unsupportedWidth bits)) ∧
          (bits = 64 → (addr - s.params.base) % 8 ≠ 0 → step s = .refused (.misalignedAccess addr))

/-! ### Reset, invariants, errors (10_state.md, 60_exceptions.md, 70_reset_and_hazards.md) -/

/-- Every piece of the block's state holds its reset value (R38) in the machine's state after reset, and after a reset
from any state. That a reset is an event of the list, and that it keeps the parameters, is the model's reading of R230
and R231 (DEDUCED, log 3). -/
def Obligations.ResetSetsEveryPieceOfState : Prop :=
  AfterReset State.reset ∧
    ∀ (s : State) (rest : List HostStep), s.pending = .reset :: rest →
      ∃ t, step s = .next t ∧ AfterReset t ∧ t.params = s.params

/-- The state after reset holds the invariant. -/
def Obligations.ResetHoldsInvariant : Prop := State.reset.Inv

/-- R7, R25, R30, R33, R35: every step keeps legal parameters, every buffer within `MAXLEN`, every unit within its
width, the correlation vector's shape and bounds, and an error code only with the sticky bit. -/
def Obligations.StepKeepsInvariant : Prop := ∀ s t : State, s.Inv → step s = .next t → t.Inv

/-- R216: with no host step waiting, the block is idle and holds all its state. The model's step then changes nothing
(log 2). -/
def Obligations.IdleBlockHoldsItsState : Prop := ∀ s : State, s.pending = [] → step s = .next s

/-- R203: no command halts the block, whatever its operands and the state: each answers a next state. -/
def Obligations.EveryCommandAnswersNextState : Prop := ∀ (i : Instr) (s : State), ∃ t, exec i s = .next t

/-- A host program that makes supported accesses only runs to its end from every state. -/
def Obligations.SupportedProgramsRunToTheirEnd : Prop :=
  ∀ (prog : List HostStep) (s : State), programWf s.params prog = true →
    ∃ t, runProgram prog s = .next t ∧ t.pending = [] ∧ t.params = s.params

/-- R202: a command that raises changes only `STATUS`: its code and the sticky bit. -/
def Obligations.RaisedCommandChangesOnlyStatus : Prop :=
  ∀ (i : Instr) (s t : State), exec i s = .next t → t.status.err ≠ .ok → t = raised t.status.err s

/-- R26: a command that completes writes OK and leaves `FAULT` unchanged, one that raises writes its code and sets
`FAULT`, and no other event writes `STATUS` but a reset. -/
def Obligations.EveryCommandWritesStatus : Prop :=
  (∀ (i : Instr) (s t : State), exec i s = .next t →
    (firstError i s = none → t.status = { err := .ok, fault := s.status.fault }) ∧
      ∀ e, firstError i s = some e → t.status = { err := e, fault := true }) ∧
    ∀ s t : State, step s = .next t → t.status ≠ s.status →
      s.pending.head? = some .reset ∨ ∃ v, s.pending.head? = some (.write 64 s.params.base v)

/-- R206: a value that is no command reports `IllegalCommand`. A command reports the first failing check in the order of
the table, and OK where none fails. -/
def Obligations.ReportedErrorIsFirstFailingCheck : Prop :=
  (∀ (s : State) (v : Word) (rest : List HostStep), s.pending = .write 64 s.params.base v :: rest →
    (∀ i, decode v ≠ .ok i) → ∃ t, step s = .next t ∧ t.status.err = .illegalCommand) ∧
    ∀ (i : Instr) (s t : State), exec i s = .next t → t.status.err = (firstError i s).getD .ok

/-- R25: `FAULT` is cleared only by reset. -/
def Obligations.FaultIsClearedOnlyByReset : Prop :=
  ∀ s t : State, step s = .next t → s.status.fault = true → s.pending.head? ≠ some .reset → t.status.fault = true

/-- R22, R24: no command writes an argument register or `CMD`, nor the parameters or what the host has done and has
still to do. -/
def Obligations.CommandsKeepHostWrittenRegisters : Prop :=
  ∀ (i : Instr) (s t : State), exec i s = .next t →
    t.a = s.a ∧ t.cmd = s.cmd ∧ t.params = s.params ∧ t.pending = s.pending ∧ t.observed = s.observed

/-- A step that is neither a write of `CMD` nor a reset changes no result register, no buffer, no unit, not the
correlation vector, not `CMD`, and not `STATUS` (R26); an argument register changes only by a write to it (R22). -/
def Obligations.OnlyCommandsAndResetChangeTheBlock : Prop :=
  ∀ s t : State, step s = .next t → s.pending.head? ≠ some .reset →
    ((∀ v, s.pending.head? ≠ some (.write 64 s.params.base v)) →
      t.r = s.r ∧ t.cmd = s.cmd ∧ t.status = s.status ∧ t.buf = s.buf ∧ t.lfsr = s.lfsr ∧ t.cv = s.cv) ∧
      t.params = s.params ∧ t.pending = s.pending.tail ∧
      ∀ k : Fin 5, t.a[k] = s.a[k] ∨
        ∃ v, s.pending.head? = some (.write 64 (s.params.base + 0x10 + 8 * k.val) v) ∧ t.a[k] = v

/-- R23: a command writes only the result registers its rule names, and none when it raises. -/
def Obligations.OnlyNamedResultRegistersChange : Prop :=
  ∀ (i : Instr) (s t : State), exec i s = .next t →
    ∀ k : Fin 3, k ∉ writes i ∨ t.status.err ≠ .ok → t.r[k] = s.r[k]

/-- R28, R209: no command depends on `STATUS`: with another status the same command does the same to all other state,
reports the same code, and only the sticky bit carries over. -/
def Obligations.CommandsDoNotDependOnStatus : Prop :=
  ∀ (i : Instr) (s t : State) (st : Status), exec i s = .next t →
    exec i { s with status := st } =
      .next { t with status := { err := t.status.err, fault := st.fault || decide (t.status.err ≠ .ok) } }

/-- R74: a command reads no argument register its rule does not name. -/
def Obligations.UnnamedArgumentsAreNotRead : Prop :=
  ∀ (i : Instr) (s t : State) (a' : Vector Word 5), (∀ k ∈ reads i, a'[k] = s.a[k]) → exec i s = .next t →
    exec i { s with a := a' } = .next { t with a := a' }

/-- What each kind of storage is changed by: a buffer only by a command that names it as its destination, a unit only
by LNEW or LSHIFT of it or by GOLD, the correlation vector only by PACORR (R34). -/
def Obligations.StorageIsChangedOnlyByItsCommands : Prop :=
  ∀ (i : Instr) (s t : State), exec i s = .next t →
    (∀ b : BufIx, t.buf[b] = s.buf[b] ∨ i = .bnew b ∨ i = .bset b ∨ i = .gold b ∨
        ∃ ba bb, i = .spenc b ba bb ∨ i = .spdec b ba bb) ∧
      (∀ u : UnitIx, t.lfsr[u] = s.lfsr[u] ∨ i = .lnew u ∨ i = .lshift u ∨ ∃ bd, i = .gold bd) ∧
      (t.cv = s.cv ∨ ∃ ba, i = .pacorr ba)

/-- R36: every field of every buffer, unit and of the correlation vector is observable: two states of the block for
which every command, with every argument, reports the same code and the same result registers, hold the same buffers,
units and correlation vector. -/
def Obligations.StoredStateIsObservable : Prop :=
  ∀ s s' : State, s.Inv → s'.Inv →
    (∀ (i : Instr) (a : Vector Word 5) (t t' : State),
      exec i { s with a := a } = .next t → exec i { s' with a := a } = .next t' →
        t.status.err = t'.status.err ∧ (t.status.err = .ok → ∀ k ∈ writes i, t.r[k] = t'.r[k])) →
    s.buf = s'.buf ∧ s.lfsr = s'.lfsr ∧ s.cv = s'.cv

/-! ### Bit-sequence buffers (40_bitsequence.md) -/

/-- R100: BNEW. -/
def Obligations.BnewAllocatesZeros : Prop :=
  ∀ (bd : BufIx) (s : State),
    decode (BitVec.ofNat 64 (0x01 + 2 ^ 8 * bd.val)) = .ok (.bnew bd) ∧
      (s.a[0].toInt ≤ 0 → exec (.bnew bd) s = .next (raised .invalidLength s)) ∧
      ((s.params.maxLen : Int) < s.a[0].toInt → exec (.bnew bd) s = .next (raised .capacityExceeded s)) ∧
      ∀ n : Nat, s.a[0].toInt = n → 0 < n → n ≤ s.params.maxLen →
        exec (.bnew bd) s = .next { completed s with buf := s.buf.set bd (some (List.replicate n false)) }

/-- R101: BGET. -/
def Obligations.BgetReadsOneBit : Prop :=
  ∀ (ba : BufIx) (s : State),
    decode (BitVec.ofNat 64 (0x02 + 2 ^ 12 * ba.val)) = .ok (.bget ba) ∧
      (s.buf[ba] = none → exec (.bget ba) s = .next (raised .notAllocated s)) ∧
      ∀ bits, s.buf[ba] = some bits →
        (bits.length ≤ s.a[0].toNat → exec (.bget ba) s = .next (raised .indexOutOfRange s)) ∧
          ∀ h : s.a[0].toNat < bits.length,
            exec (.bget ba) s = .next { completed s with r := s.r.set 0 (if bits[s.a[0].toNat] then 1 else 0) }

/-- R102: BSET. -/
def Obligations.BsetWritesOneBit : Prop :=
  ∀ (bd : BufIx) (s : State),
    decode (BitVec.ofNat 64 (0x03 + 2 ^ 8 * bd.val)) = .ok (.bset bd) ∧
      (s.buf[bd] = none → exec (.bset bd) s = .next (raised .notAllocated s)) ∧
      ∀ bits, s.buf[bd] = some bits →
        (bits.length ≤ s.a[0].toNat → exec (.bset bd) s = .next (raised .indexOutOfRange s)) ∧
          (s.a[0].toNat < bits.length →
            (1 < s.a[1].toNat → exec (.bset bd) s = .next (raised .invalidBit s)) ∧
              ∀ v : Bool, s.a[1] = (if v then 1 else 0) →
                exec (.bset bd) s =
                  .next { completed s with buf := s.buf.set bd (some (bits.set s.a[0].toNat v)) })

/-- R103: BLEN. In a state that holds the invariants the length is in `1..MAXLEN`. -/
def Obligations.BlenReadsLength : Prop :=
  ∀ (ba : BufIx) (s : State),
    decode (BitVec.ofNat 64 (0x04 + 2 ^ 12 * ba.val)) = .ok (.blen ba) ∧
      (s.buf[ba] = none → exec (.blen ba) s = .next (raised .notAllocated s)) ∧
      ∀ bits, s.buf[ba] = some bits →
        exec (.blen ba) s = .next { completed s with r := s.r.set 0 (BitVec.ofNat 64 bits.length) } ∧
          (s.Inv → 1 ≤ (BitVec.ofNat 64 bits.length).toNat ∧
            (BitVec.ofNat 64 bits.length).toNat ≤ s.params.maxLen)

/-- R104: the laws of the buffer commands, each read done by a BGET or BLEN after the host has written its `A0`. -/
def Obligations.BufferCommandLaws : Prop :=
  (∀ (s t : State) (b : BufIx) (bits : BitSeq) (v : Bool), s.buf[b] = some bits → bits.length ≤ 2 ^ 31 →
    s.a[0].toNat < bits.length → s.a[1] = (if v then 1 else 0) → exec (.bset b) s = .next t →
      ∀ j : Nat, j < bits.length → ∃ x y,
        exec (.bget b) { s with a := s.a.set 0 (BitVec.ofNat 64 j) } = .next x ∧
          exec (.bget b) { t with a := t.a.set 0 (BitVec.ofNat 64 j) } = .next y ∧
          y.r[0] = if j = s.a[0].toNat then s.a[1] else x.r[0]) ∧
    (∀ (s t : State) (b : BufIx) (n : Nat), s.a[0].toInt = n → s.params.maxLen ≤ 2 ^ 31 → exec (.bnew b) s = .next t →
      t.status.err = .ok →
        (∃ x, exec (.blen b) t = .next x ∧ x.r[0] = BitVec.ofNat 64 n) ∧
          ∀ j : Nat, j < n → ∃ y, exec (.bget b) { t with a := t.a.set 0 (BitVec.ofNat 64 j) } = .next y ∧
            y.status.err = .ok ∧ y.r[0] = 0) ∧
    ∀ (s t : State) (b c : BufIx) (i : Instr), i ∈ [Instr.bnew b, .bget b, .bset b, .blen b] → exec i s = .next t →
      t.lfsr = s.lfsr ∧ t.cv = s.cv ∧ (c ≠ b ∨ i = .bget b ∨ i = .blen b → t.buf[c] = s.buf[c])

/-! ### LFSR units (41_lfsr.md) -/

/-- R122: LNEW. A tap at or above the width is a bit of the mask there (R84). -/
def Obligations.LnewConfiguresUnit : Prop :=
  ∀ (u : UnitIx) (s : State),
    decode (BitVec.ofNat 64 (0x10 + 2 ^ 8 * u.val)) = .ok (.lnew u) ∧
      ((s.a[2].toNat < 1 ∨ 64 < s.a[2].toNat) → exec (.lnew u) s = .next (raised .invalidWidth s)) ∧
      (1 ≤ s.a[2].toNat → s.a[2].toNat ≤ 64 →
        ((s.a[0] = 0 ∨ 2 ^ s.a[2].toNat ≤ s.a[0].toNat) → exec (.lnew u) s = .next (raised .invalidSeed s)) ∧
          (s.a[0] ≠ 0 → s.a[0].toNat < 2 ^ s.a[2].toNat →
            ((∃ k, s.a[2].toNat ≤ k ∧ s.a[1].getLsbD k = true) → exec (.lnew u) s = .next (raised .invalidTap s)) ∧
              ((∀ k, s.a[2].toNat ≤ k → s.a[1].getLsbD k = false) →
                exec (.lnew u) s = .next { completed s with
                  lfsr := s.lfsr.set u { cfg := true, state := s.a[0], taps := s.a[1], width := s.a[2].toNat } })))

/-- R123 with R120: LFB returns the XOR of the tapped state bits and changes no unit. -/
def Obligations.LfbReturnsFeedback : Prop :=
  ∀ (u : UnitIx) (s : State),
    decode (BitVec.ofNat 64 (0x11 + 2 ^ 8 * u.val)) = .ok (.lfb u) ∧
      (s.lfsr[u].cfg = false → exec (.lfb u) s = .next (raised .notConfigured s)) ∧
      (s.lfsr[u].cfg = true →
        exec (.lfb u) s =
          .next { completed s with r := s.r.set 0 (if xorTaps s.lfsr[u].state s.lfsr[u].taps then 1 else 0) })

/-- R124 with R120, R121: LSHIFT makes the state `(state << 1 | feedback) mod 2^width` and returns the feedback bit. -/
def Obligations.LshiftShiftsOnce : Prop :=
  ∀ (u : UnitIx) (s : State),
    decode (BitVec.ofNat 64 (0x12 + 2 ^ 8 * u.val)) = .ok (.lshift u) ∧
      (s.lfsr[u].cfg = false → exec (.lshift u) s = .next (raised .notConfigured s)) ∧
      (s.lfsr[u].cfg = true →
        exec (.lshift u) s = .next { completed s with
          lfsr := s.lfsr.set u { cfg := true, state := nextState s.lfsr[u].state s.lfsr[u].taps s.lfsr[u].width,
                                 taps := s.lfsr[u].taps, width := s.lfsr[u].width },
          r := s.r.set 0 (if xorTaps s.lfsr[u].state s.lfsr[u].taps then 1 else 0) })

/-- R126: LRD. -/
def Obligations.LrdReadsUnit : Prop :=
  ∀ (u : UnitIx) (s : State),
    decode (BitVec.ofNat 64 (0x13 + 2 ^ 8 * u.val)) = .ok (.lrd u) ∧
      (s.lfsr[u].cfg = false → exec (.lrd u) s = .next (raised .notConfigured s)) ∧
      (s.lfsr[u].cfg = true →
        exec (.lrd u) s = .next { completed s with
          r := #v[s.lfsr[u].state, s.lfsr[u].taps, BitVec.ofNat 64 s.lfsr[u].width] })

/-- R125: a shift may make the state 0 and raises nothing when it does; once it is 0, every later feedback is 0 and the
state stays 0. -/
def Obligations.ZeroStateIsLegalAndStays : Prop :=
  ∀ (u : UnitIx) (s : State), s.lfsr[u].cfg = true →
    (∃ t, exec (.lshift u) s = .next t ∧ t.status.err = .ok ∧ t.status.fault = s.status.fault) ∧
      (s.lfsr[u].state = 0 → ∀ j : Nat,
        (afterTimes (.lshift u) j s).lfsr[u] = s.lfsr[u] ∧ outputBit u s j = false ∧
          (afterTimes (.lshift u) (j + 1) s).status.err = .ok) ∧
      ∃ (w : State), w.lfsr[u].cfg = true ∧ w.lfsr[u].state = 8 ∧ w.lfsr[u].taps = 1 ∧ w.lfsr[u].width = 4 ∧
        (afterTimes (.lshift u) 1 w).lfsr[u].state = 0 ∧ (afterTimes (.lshift u) 1 w).status.err = .ok

/-- R127: before the `t`-th shift, bit `k` of the state is `a_{t-1-k}`, and `a_t` is the XOR over the taps `k` of
`a_{t-1-k}`. -/
def Obligations.LshiftOutputRecurrence : Prop :=
  ∀ (u : UnitIx) (s : State), s.lfsr[u].cfg = true → LfsrUnit.Inv s.lfsr[u] → ∀ t : Nat,
    (∀ k : Nat, k < s.lfsr[u].width → (afterTimes (.lshift u) t s).lfsr[u].state.getLsbD k = history u s t k) ∧
      outputBit u s t =
        (List.range s.lfsr[u].width).foldl (fun f k => f ^^ (s.lfsr[u].taps.getLsbD k && history u s t k)) false

/-- R127, its first consequence and its second: with every tap below `m`, the output depends only on the low `m` bits
of the seed, however wide the units are, and is all zeros where those are 0. -/
def Obligations.LshiftOutputDependsOnLowBits : Prop :=
  ∀ (u u' : UnitIx) (s s' : State) (m : Nat),
    s.lfsr[u].cfg = true → s'.lfsr[u'].cfg = true → LfsrUnit.Inv s.lfsr[u] → LfsrUnit.Inv s'.lfsr[u'] →
      s.lfsr[u].taps = s'.lfsr[u'].taps → (∀ k, m ≤ k → s.lfsr[u].taps.getLsbD k = false) →
        ((∀ k, k < m → s.lfsr[u].state.getLsbD k = s'.lfsr[u'].state.getLsbD k) →
          ∀ t, outputBit u s t = outputBit u' s' t) ∧
          ((∀ k, k < m → s.lfsr[u].state.getLsbD k = false) → ∀ t, outputBit u s t = false)

/-- R127, the period: with highest tap `m - 1`, the output repeats with a period of at most `2^m - 1`. -/
def Obligations.LshiftOutputPeriod : Prop :=
  ∀ (u : UnitIx) (s : State) (m : Nat), s.lfsr[u].cfg = true → LfsrUnit.Inv s.lfsr[u] → 1 ≤ m →
    s.lfsr[u].taps.getLsbD (m - 1) = true → (∀ k, m ≤ k → s.lfsr[u].taps.getLsbD k = false) →
      ∃ p : Nat, 1 ≤ p ∧ p ≤ 2 ^ m - 1 ∧ ∀ t, outputBit u s (t + p) = outputBit u s t

/-! ### The Gold-code generator (42_gold.md) -/

/-- R141 with R140, and R142: GOLD raises the first failing check of its list, or leaves the code in the buffer, of
`2^n - 1` bits, and both units in their final states. -/
def Obligations.GoldGeneratesCode : Prop :=
  ∀ (bd : BufIx) (s : State),
    decode (BitVec.ofNat 64 (0x20 + 2 ^ 8 * bd.val)) = .ok (.gold bd) ∧
      (∀ e, firstError (.gold bd) s = some e → exec (.gold bd) s = .next (raised e s)) ∧
      ∀ n : Nat, s.a[0].toNat = n → firstError (.gold bd) s = none →
        exec (.gold bd) s = .next { completed s with
            lfsr := #v[{ cfg := true, state := stateAt s.a[2] s.a[1] n (2 ^ n - 1), taps := s.a[1], width := n },
                       { cfg := true, state := stateAt s.a[4] s.a[3] n (2 ^ n - 1), taps := s.a[3], width := n }],
            buf := s.buf.set bd (some (goldCode n s.a[1] s.a[2] s.a[3] s.a[4])) } ∧
          (goldCode n s.a[1] s.a[2] s.a[3] s.a[4]).length = 2 ^ n - 1

/-- R143: the code and the final units of a completing GOLD are a function of `A0` to `A4` alone. -/
def Obligations.GoldDependsOnArgumentsAlone : Prop :=
  ∀ (bd bd' : BufIx) (s s' t t' : State), s.a = s'.a → exec (.gold bd) s = .next t → exec (.gold bd') s' = .next t' →
    t.status.err = .ok → t'.status.err = .ok → t.buf[bd] = t'.buf[bd'] ∧ t.lfsr = t'.lfsr

/-- R144: equal pairs give an all-zero code. -/
def Obligations.GoldEqualPairsGiveZeros : Prop :=
  ∀ (bd : BufIx) (s t : State), s.a[1] = s.a[3] → s.a[2] = s.a[4] → exec (.gold bd) s = .next t → t.status.err = .ok →
    t.buf[bd] = some (List.replicate (2 ^ s.a[0].toNat - 1) false) ∧ t.lfsr[0] = t.lfsr[1]

/-- R145, for either LFSR (tap mask `A1` with seed `A2`, tap mask `A3` with seed `A4`): two seeds that agree below
some `m` with no tap at or above it, so that they differ only above the highest tap, give the same code and the same
final units. The rule's example, with first seeds 1 and 17, completes. -/
def Obligations.GoldIgnoresSeedBitsAboveTaps : Prop :=
  (∀ (bd : BufIx) (s t t' : State) (seed : Word) (m : Nat),
    (∀ k, m ≤ k → s.a[1].getLsbD k = false) → (∀ k, k < m → seed.getLsbD k = s.a[2].getLsbD k) →
      exec (.gold bd) s = .next t → exec (.gold bd) { s with a := s.a.set 2 seed } = .next t' →
        t.status.err = .ok → t'.status.err = .ok → t.buf = t'.buf ∧ t.lfsr = t'.lfsr) ∧
    (∀ (bd : BufIx) (s t t' : State) (seed : Word) (m : Nat),
      (∀ k, m ≤ k → s.a[3].getLsbD k = false) → (∀ k, k < m → seed.getLsbD k = s.a[4].getLsbD k) →
        exec (.gold bd) s = .next t → exec (.gold bd) { s with a := s.a.set 4 seed } = .next t' →
          t.status.err = .ok → t'.status.err = .ok → t.buf = t'.buf ∧ t.lfsr = t'.lfsr) ∧
    ∀ (bd : BufIx) (s : State), 10 ≤ s.params.goldNMax → s.a = #v[10, 0x9, 1, 0x10D, 0b1010101010] →
      ∃ t t', exec (.gold bd) s = .next t ∧ exec (.gold bd) { s with a := s.a.set 2 17 } = .next t' ∧
        t.status.err = .ok ∧ t'.status.err = .ok ∧ t.buf = t'.buf ∧ t.lfsr = t'.lfsr

/-! ### The spreader (43_spreader.md) -/

/-- R151 with R150, R152: SPENC, and SPDEC with the same effect on every state. -/
def Obligations.SpreadersXorCyclicCode : Prop :=
  ∀ (bd ba bb : BufIx) (s : State),
    decode (BitVec.ofNat 64 (0x30 + 2 ^ 8 * bd.val + 2 ^ 12 * ba.val + 2 ^ 16 * bb.val)) = .ok (.spenc bd ba bb) ∧
      decode (BitVec.ofNat 64 (0x31 + 2 ^ 8 * bd.val + 2 ^ 12 * ba.val + 2 ^ 16 * bb.val)) = .ok (.spdec bd ba bb) ∧
      exec (.spdec bd ba bb) s = exec (.spenc bd ba bb) s ∧
      ∀ i ∈ [Instr.spenc bd ba bb, .spdec bd ba bb],
        ((s.buf[ba] = none ∨ s.buf[bb] = none) → exec i s = .next (raised .notAllocated s)) ∧
          ∀ (d code : BitSeq) (hc : 0 < code.length), s.buf[ba] = some d → s.buf[bb] = some code →
            exec i s = .next { completed s with
              buf := s.buf.set bd (some (List.ofFn fun k : Fin d.length =>
                d[k] ^^ (code[k.val % code.length]'(Nat.mod_lt k.val hc)))) }

/-- R153: spreading with a code and despreading the result with the same code gives the data back, with the two
commands in either order or one of them twice. -/
def Obligations.SpreadRoundTripRestoresData : Prop :=
  ∀ (s : State) (b1 b2 ba bb : BufIx) (d c : BitSeq) (i j : Instr),
    s.buf[ba] = some d → s.buf[bb] = some c → b1 ≠ bb →
      i ∈ [Instr.spenc b1 ba bb, .spdec b1 ba bb] → j ∈ [Instr.spenc b2 b1 bb, .spdec b2 b1 bb] →
        ∃ t t', exec i s = .next t ∧ exec j t = .next t' ∧ t'.buf[b2] = some d ∧ t'.status.err = .ok

/-! ### The correlation engine (44_correlation.md) -/

/-- R162: SIG. -/
def Obligations.SigReadsAntipodalSample : Prop :=
  ∀ (ba : BufIx) (s : State),
    decode (BitVec.ofNat 64 (0x40 + 2 ^ 12 * ba.val)) = .ok (.sig ba) ∧
      (s.buf[ba] = none → exec (.sig ba) s = .next (raised .notAllocated s)) ∧
      ∀ bits, s.buf[ba] = some bits →
        (bits.length ≤ s.a[0].toNat → exec (.sig ba) s = .next (raised .indexOutOfRange s)) ∧
          ∀ h : s.a[0].toNat < bits.length,
            exec (.sig ba) s = .next { completed s with
              r := s.r.set 0 (if bits[s.a[0].toNat] then 0x0000000000000001 else 0xFFFFFFFFFFFFFFFF) }

/-- R163 with R161: NXCORR. -/
def Obligations.NxcorrReturnsSumAndLength : Prop :=
  ∀ (ba bb : BufIx) (s : State),
    decode (BitVec.ofNat 64 (0x41 + 2 ^ 12 * ba.val + 2 ^ 16 * bb.val)) = .ok (.nxcorr ba bb) ∧
      ((s.buf[ba] = none ∨ s.buf[bb] = none) → exec (.nxcorr ba bb) s = .next (raised .notAllocated s)) ∧
      ∀ x y, s.buf[ba] = some x → s.buf[bb] = some y →
        (x.length ≠ y.length → exec (.nxcorr ba bb) s = .next (raised .lengthMismatch s)) ∧
          (x.length = y.length → exec (.nxcorr ba bb) s = .next { completed s with
            r := #v[BitVec.ofInt 64 (corrSum x y), BitVec.ofNat 64 x.length, s.r[2]] })

/-- R164 with R161: CSUM. -/
def Obligations.CsumReturnsSum : Prop :=
  ∀ (ba bb : BufIx) (s : State),
    decode (BitVec.ofNat 64 (0x42 + 2 ^ 12 * ba.val + 2 ^ 16 * bb.val)) = .ok (.csum ba bb) ∧
      ((s.buf[ba] = none ∨ s.buf[bb] = none) → exec (.csum ba bb) s = .next (raised .notAllocated s)) ∧
      ∀ x y, s.buf[ba] = some x → s.buf[bb] = some y →
        (x.length ≠ y.length → exec (.csum ba bb) s = .next (raised .lengthMismatch s)) ∧
          (x.length = y.length → exec (.csum ba bb) s = .next { completed s with
            r := #v[BitVec.ofInt 64 (corrSum x y), s.r[1], s.r[2]] })

/-- R166 with R165: PACORR replaces the whole correlation vector. -/
def Obligations.PacorrWritesAutocorrelation : Prop :=
  ∀ (ba : BufIx) (s : State),
    decode (BitVec.ofNat 64 (0x43 + 2 ^ 12 * ba.val)) = .ok (.pacorr ba) ∧
      (s.buf[ba] = none → exec (.pacorr ba) s = .next (raised .notAllocated s)) ∧
      ∀ x, s.buf[ba] = some x →
        exec (.pacorr ba) s = .next { completed s with
          cv := { valid := true, len := x.length, den := x.length,
                  val := (List.range x.length).map (autocorr x) } }

/-- R168 with R167: MAXOFF returns the largest magnitude among the entries past the first, 0 where there is none, as
for a vector of one entry. -/
def Obligations.MaxoffReturnsOffPeakMaximum : Prop :=
  ∀ s : State,
    decode 0x44 = .ok .maxoff ∧
      (s.cv.valid = false → exec .maxoff s = .next (raised .notAllocated s)) ∧
      (s.cv.valid = true → ∃ m : Nat,
        exec .maxoff s = .next { completed s with
          r := #v[BitVec.ofNat 64 m, BitVec.ofNat 64 s.cv.den, BitVec.ofNat 64 s.cv.len] } ∧
          (∀ x ∈ s.cv.val.drop 1, |x| ≤ m) ∧
          ((s.cv.val.drop 1 = [] ∧ m = 0) ∨ ∃ x ∈ s.cv.val.drop 1, |x| = m)) ∧
      (s.Inv → s.cv.len = 1 → ∃ t, exec .maxoff s = .next t ∧ t.status.err = .ok ∧ t.r[0] = 0)

/-- R169: CVRD. Entry 0 of a vector is its denominator. -/
def Obligations.CvrdReadsEntry : Prop :=
  ∀ s : State,
    decode 0x45 = .ok .cvrd ∧
      (s.cv.valid = false → exec .cvrd s = .next (raised .notAllocated s)) ∧
      (s.cv.valid = true →
        (s.cv.len ≤ s.a[0].toNat → exec .cvrd s = .next (raised .indexOutOfRange s)) ∧
          ∀ x : Int, s.a[0].toNat < s.cv.len → s.cv.val[s.a[0].toNat]? = some x →
            exec .cvrd s = .next { completed s with
              r := #v[BitVec.ofInt 64 x, BitVec.ofNat 64 s.cv.den, BitVec.ofNat 64 s.cv.len] }) ∧
      (s.Inv → s.cv.valid = true → s.a[0] = 0 → ∃ t, exec .cvrd s = .next t ∧ t.status.err = .ok ∧ t.r[0] = t.r[1])

/-- R161: the three forms of the correlation sum of two sequences of one length agree. -/
def Obligations.CorrelationSumForms : Prop :=
  ∀ (a b : BitSeq) (h : a.length = b.length),
    csum a b = (∑ i : Fin a.length, antipodal a[i] * antipodal (b[i.val]'(h ▸ i.isLt))) ∧
      csum a b = (agreements a b : Int) - (disagreements a b : Int) ∧ csum a b = corrSum a b

/-- R170: the laws of the correlation functions. -/
def Obligations.CorrelationLaws : Prop :=
  ∀ a b x : BitSeq, a.length = b.length →
    csum a a = a.length ∧ csum a (a.map fun v => !v) = -(a.length : Int) ∧ csum a b = csum b a ∧
      csum a b % 2 = (a.length : Int) % 2 ∧ (1 ≤ x.length → acorr x 0 = x.length) ∧
      ∀ k : Nat, k < x.length →
        (1 ≤ k → acorr x k = acorr x (x.length - k)) ∧ acorr x k % 2 = (x.length : Int) % 2

/-- R171: the bit domain and the signal domain agree up to sign, and spreading one data bit over a whole code gives
`+L` for bit 0 and `-L` for bit 1. -/
def Obligations.BitDomainSignConvention : Prop :=
  (∀ a b : Bool, sig (a ^^ b) = -(sig a * sig b) ∧ sig a * sig b = sig (!(a ^^ b))) ∧
    ∀ c : BitSeq,
      spread (List.replicate c.length false) c = c ∧
        spread (List.replicate c.length true) c = c.map (fun v => !v) ∧
        csum (spread (List.replicate c.length false) c) c = c.length ∧
        csum (spread (List.replicate c.length true) c) c = -(c.length : Int)

/-- R160: in a state that holds the invariants, the numerator a correlation command returns is the exact integer, in
`[-L, L]`, read as a signed word, and its denominator is the length, at least 1: no sum overflows. For MAXOFF the exact
integer is the largest off-peak magnitude, 0 where there is no entry past the first. -/
def Obligations.CorrelationResultsAreExact : Prop :=
  ∀ s : State, s.Inv →
    (∀ (ba bb : BufIx) (x y : BitSeq) (t : State) (i : Instr), i ∈ [Instr.nxcorr ba bb, .csum ba bb] →
      s.buf[ba] = some x → s.buf[bb] = some y → exec i s = .next t → t.status.err = .ok →
        t.r[0].toInt = corrSum x y ∧ |t.r[0].toInt| ≤ x.length ∧
          (i = .nxcorr ba bb → t.r[1].toNat = x.length ∧ 1 ≤ t.r[1].toNat)) ∧
      (∀ t : State, exec .cvrd s = .next t → t.status.err = .ok →
        s.cv.val[s.a[0].toNat]? = some t.r[0].toInt ∧ |t.r[0].toInt| ≤ s.cv.len ∧ t.r[1].toNat = s.cv.den ∧
          1 ≤ t.r[1].toNat ∧ t.r[2].toNat = s.cv.len) ∧
      ∀ t : State, exec .maxoff s = .next t → t.status.err = .ok →
        t.r[0].toNat ≤ s.cv.len ∧ t.r[1].toNat = s.cv.den ∧ 1 ≤ t.r[1].toNat ∧
          (∀ x ∈ s.cv.val.drop 1, |x| ≤ t.r[0].toNat) ∧
          ((s.cv.val.drop 1 = [] ∧ t.r[0] = 0) ∨ ∃ x ∈ s.cv.val.drop 1, |x| = t.r[0].toNat)

/-! ### Text and pseudo-instructions (30_encoding.md) -/

/-- R86, R87: the rendering of a bit sequence holds its bits in index order and names it, and byte `j` of a text gives
positions `8j` to `8j+7`, most significant bit first. -/
def Obligations.TextFormsKeepBitOrder : Prop :=
  (∀ x : BitSeq, (renderBits x).toList = x.map (fun b => if b then '1' else '0') ∧ parseBits (renderBits x) = some x) ∧
    ∀ (text : List Byte) (j k : Nat) (hj : j < text.length), k < 8 →
      (textBits text).length = 8 * text.length ∧ (textBits text)[8 * j + k]? = some (text[j].getLsbD (7 - k))

/-- R92: the steps of `loadbits` leave the buffer holding the sequence, and change only `A0`, `A1`, `CMD` and `STATUS`
besides, with no error. -/
def Obligations.LoadbitsLeavesSequence : Prop :=
  ∀ (s : State) (bd : BufIx) (x : BitSeq), s.params.wf = true → x ≠ [] → x.length ≤ s.params.maxLen →
    ∃ t, runProgram (loadbitsSteps s.params bd x) s = .next t ∧ t.buf = s.buf.set bd (some x) ∧
      t.status = { err := .ok, fault := s.status.fault } ∧ t.r = s.r ∧ t.lfsr = s.lfsr ∧ t.cv = s.cv ∧
      t.observed = s.observed ∧ t.params = s.params ∧ t.pending = [] ∧ ∀ k : Fin 5, 2 ≤ k.val → t.a[k] = s.a[k]
end

