-- ==== Sys2Proof/Laws/Decode.lean ====
section
/-! SUPPORT. What the decoder can answer, said once: a value that decodes names a row, has nothing outside its format,
and gives that row's command with the fields of the word (30_encoding.md R76). -/

namespace Sys2Proof

/-- The row an opcode selects is the one it is the opcode of. -/
@[simp] theorem rowOf_opcode (op : Op) : rowOf op.opcode = some op := by cases op <;> rfl

/-- A row that is found has the opcode looked for. -/
theorem opcode_of_rowOf {opc : Word} {op : Op} (h : rowOf opc = some op) : op.opcode = opc := by
  have := List.find?_some h
  simpa using this

/-- The decoder answers exactly on a value with a row, nothing in its upper half, and nothing outside the format. -/
theorem decode_ok_iff (v : Word) (i : Instr) :
    decode v = .ok i ↔ ∃ op : Op, v >>> 32 = 0 ∧ opcField v = op.opcode ∧ v &&& ~~~op.format.keep = 0 ∧
      i = op.instr (bufField v 8) (bufField v 12) (bufField v 16) (unitField v) := by
  constructor
  · intro h
    unfold decode at h
    split at h
    · cases h
    split at h
    · cases h
    split at h
    · cases h
    rename_i h1 _ op hr h2
    cases h
    exact ⟨op, Decidable.not_not.1 h1, (opcode_of_rowOf hr).symm, Decidable.not_not.1 h2, rfl⟩
  · rintro ⟨op, h1, h2, h3, rfl⟩
    simp only [decode, h1, h2, rowOf_opcode, h3, ne_eq, not_true_eq_false, if_false]

/-- A row's command has that row's mnemonic, whatever the fields. -/
@[simp] theorem op_instr_op (op : Op) (bd ba bb : BufIx) (u : UnitIx) : (op.instr bd ba bb u).op = op := by
  cases op <;> rfl

/-- A buffer field as bits of the word. -/
theorem bufField_ofNat (v : Word) (lo : Nat) : BitVec.ofNat 64 (bufField v lo).val = (v >>> lo) &&& 15#64 := by
  apply BitVec.eq_of_toNat_eq
  simp only [bufField, BitVec.toNat_and, BitVec.toNat_ushiftRight, BitVec.toNat_ofNat, Fin.ofNat]
  rw [show 15 % 2 ^ 64 = 2 ^ 4 - 1 from rfl, Nat.and_two_pow_sub_one_eq_mod]
  omega

/-- The unit field as a bit of the word. -/
theorem unitField_ofNat (v : Word) : BitVec.ofNat 64 (unitField v).val = (v >>> 8) &&& 1#64 := by
  apply BitVec.eq_of_toNat_eq
  simp only [unitField, BitVec.toNat_and, BitVec.toNat_ushiftRight, BitVec.toNat_ofNat, Fin.ofNat]
  rw [show 1 % 2 ^ 64 = 2 ^ 1 - 1 from rfl, Nat.and_two_pow_sub_one_eq_mod]
  omega

/-- The lanes of a register hold its value (20_memory.md R57). -/
@[simp] theorem ofNat_lanesNat_lanes (v : Word) : BitVec.ofNat 64 (lanesNat (lanes v)) = v := by
  apply BitVec.eq_of_toNat_eq
  simp [lanesNat, lanes, lane, Nat.shiftRight_eq_div_pow]
  have := v.isLt
  omega

end Sys2Proof
end

