-- ==== Sys2Proof/Laws/State.lean ====
section
/-! SUPPORT. The state as a record: one lemma per field per update, so that no later proof unfolds an update, and what
reading a place gives after it, or another, is written. -/

namespace Sys2Proof.Machine

section setRes

variable (s : State) (k : Fin 3) (v : Word)

@[simp] theorem State.setRes_params : (s.setRes k v).params = s.params := rfl
@[simp] theorem State.setRes_a : (s.setRes k v).a = s.a := rfl
@[simp] theorem State.setRes_r : (s.setRes k v).r = s.r.set k v := rfl
@[simp] theorem State.setRes_cmd : (s.setRes k v).cmd = s.cmd := rfl
@[simp] theorem State.setRes_status : (s.setRes k v).status = s.status := rfl
@[simp] theorem State.setRes_buf : (s.setRes k v).buf = s.buf := rfl
@[simp] theorem State.setRes_lfsr : (s.setRes k v).lfsr = s.lfsr := rfl
@[simp] theorem State.setRes_cv : (s.setRes k v).cv = s.cv := rfl
@[simp] theorem State.setRes_pending : (s.setRes k v).pending = s.pending := rfl
@[simp] theorem State.setRes_observed : (s.setRes k v).observed = s.observed := rfl

end setRes

section bufAlloc

variable (s : State) (b : BufIx) (bits : BitSeq)

@[simp] theorem State.bufAlloc_params : (s.bufAlloc b bits).params = s.params := rfl
@[simp] theorem State.bufAlloc_a : (s.bufAlloc b bits).a = s.a := rfl
@[simp] theorem State.bufAlloc_r : (s.bufAlloc b bits).r = s.r := rfl
@[simp] theorem State.bufAlloc_cmd : (s.bufAlloc b bits).cmd = s.cmd := rfl
@[simp] theorem State.bufAlloc_status : (s.bufAlloc b bits).status = s.status := rfl
@[simp] theorem State.bufAlloc_buf : (s.bufAlloc b bits).buf = s.buf.set b (some bits) := rfl
@[simp] theorem State.bufAlloc_lfsr : (s.bufAlloc b bits).lfsr = s.lfsr := rfl
@[simp] theorem State.bufAlloc_cv : (s.bufAlloc b bits).cv = s.cv := rfl
@[simp] theorem State.bufAlloc_pending : (s.bufAlloc b bits).pending = s.pending := rfl
@[simp] theorem State.bufAlloc_observed : (s.bufAlloc b bits).observed = s.observed := rfl

end bufAlloc

section bufWrite

variable (s : State) (b : BufIx) (i : Nat) (v : Bool)

@[simp] theorem State.bufWrite_params : (s.bufWrite b i v).params = s.params := rfl
@[simp] theorem State.bufWrite_a : (s.bufWrite b i v).a = s.a := rfl
@[simp] theorem State.bufWrite_r : (s.bufWrite b i v).r = s.r := rfl
@[simp] theorem State.bufWrite_cmd : (s.bufWrite b i v).cmd = s.cmd := rfl
@[simp] theorem State.bufWrite_status : (s.bufWrite b i v).status = s.status := rfl
@[simp] theorem State.bufWrite_buf : (s.bufWrite b i v).buf = s.buf.set b (s.buf[b].map fun bits => bits.set i v) := rfl
@[simp] theorem State.bufWrite_lfsr : (s.bufWrite b i v).lfsr = s.lfsr := rfl
@[simp] theorem State.bufWrite_cv : (s.bufWrite b i v).cv = s.cv := rfl
@[simp] theorem State.bufWrite_pending : (s.bufWrite b i v).pending = s.pending := rfl
@[simp] theorem State.bufWrite_observed : (s.bufWrite b i v).observed = s.observed := rfl

end bufWrite

section setUnit

variable (s : State) (u : UnitIx) (x : LfsrUnit)

@[simp] theorem State.setUnit_params : (s.setUnit u x).params = s.params := rfl
@[simp] theorem State.setUnit_a : (s.setUnit u x).a = s.a := rfl
@[simp] theorem State.setUnit_r : (s.setUnit u x).r = s.r := rfl
@[simp] theorem State.setUnit_cmd : (s.setUnit u x).cmd = s.cmd := rfl
@[simp] theorem State.setUnit_status : (s.setUnit u x).status = s.status := rfl
@[simp] theorem State.setUnit_buf : (s.setUnit u x).buf = s.buf := rfl
@[simp] theorem State.setUnit_lfsr : (s.setUnit u x).lfsr = s.lfsr.set u x := rfl
@[simp] theorem State.setUnit_cv : (s.setUnit u x).cv = s.cv := rfl
@[simp] theorem State.setUnit_pending : (s.setUnit u x).pending = s.pending := rfl
@[simp] theorem State.setUnit_observed : (s.setUnit u x).observed = s.observed := rfl

end setUnit

section setCv

variable (s : State) (x : CorrVector)

@[simp] theorem State.setCv_params : (s.setCv x).params = s.params := rfl
@[simp] theorem State.setCv_a : (s.setCv x).a = s.a := rfl
@[simp] theorem State.setCv_r : (s.setCv x).r = s.r := rfl
@[simp] theorem State.setCv_cmd : (s.setCv x).cmd = s.cmd := rfl
@[simp] theorem State.setCv_status : (s.setCv x).status = s.status := rfl
@[simp] theorem State.setCv_buf : (s.setCv x).buf = s.buf := rfl
@[simp] theorem State.setCv_lfsr : (s.setCv x).lfsr = s.lfsr := rfl
@[simp] theorem State.setCv_cv : (s.setCv x).cv = x := rfl
@[simp] theorem State.setCv_pending : (s.setCv x).pending = s.pending := rfl
@[simp] theorem State.setCv_observed : (s.setCv x).observed = s.observed := rfl

end setCv

@[simp] theorem Status.completed_err (st : Status) : st.completed.err = .ok := rfl
@[simp] theorem Status.completed_fault (st : Status) : st.completed.fault = st.fault := rfl
@[simp] theorem Status.raised_err (st : Status) (e : ErrCode) : (st.raised e).err = e := rfl
@[simp] theorem Status.raised_fault (st : Status) (e : ErrCode) : (st.raised e).fault = true := rfl

@[simp] theorem blockReset_params (s : State) : (blockReset s).params = s.params := rfl
@[simp] theorem blockReset_pending (s : State) : (blockReset s).pending = s.pending := rfl
@[simp] theorem blockReset_observed (s : State) : (blockReset s).observed = s.observed := rfl

/-- A vector read at the index just set. -/
@[simp] theorem vector_get_set_self {α : Type} {n : Nat} (v : Vector α n) (i : Fin n) (x : α) : (v.set i x)[i] = x := by
  simp

/-- A vector read at another index than the one just set. -/
theorem vector_get_set_ne {α : Type} {n : Nat} (v : Vector α n) {i j : Fin n} (x : α) (h : i ≠ j) :
    (v.set i x)[j] = v[j] := by
  have h' : i.val ≠ j.val := fun e => h (Fin.ext e)
  simp [Vector.getElem_set_ne, h']

/-- A vector read at any index after one is set. -/
theorem vector_get_set {α : Type} {n : Nat} (v : Vector α n) (i j : Fin n) (x : α) :
    (v.set i x)[j] = if i = j then x else v[j] := by
  by_cases h : i = j
  · subst h; simp
  · rw [if_neg h, vector_get_set_ne v x h]

/-- Setting a place to what it holds changes nothing. -/
@[simp] theorem vector_set_get_self {α : Type} {n : Nat} (v : Vector α n) (i : Fin n) : v.set i v[i] = v := by
  ext j hj
  simp only [Vector.getElem_set]
  split
  · subst_vars; rfl
  · rfl

/-- Two vectors with the same entries are equal. -/
theorem vector_ext_fin {α : Type} {n : Nat} {v w : Vector α n} (h : ∀ i : Fin n, v[i] = w[i]) : v = w := by
  ext j hj
  exact h ⟨j, hj⟩

@[simp] theorem State.bufBits_bufAlloc_self (s : State) (b : BufIx) (bits : BitSeq) :
    (s.bufAlloc b bits).bufBits b = some bits := by
  simp [State.bufBits]

theorem State.bufBits_bufAlloc_ne (s : State) {b c : BufIx} (bits : BitSeq) (h : b ≠ c) :
    (s.bufAlloc b bits).bufBits c = s.bufBits c := by
  simp only [State.bufBits, State.bufAlloc_buf]
  exact vector_get_set_ne _ _ h

theorem State.bufBits_bufWrite_ne (s : State) {b c : BufIx} (i : Nat) (v : Bool) (h : b ≠ c) :
    (s.bufWrite b i v).bufBits c = s.bufBits c := by
  simp only [State.bufBits, State.bufWrite_buf]
  exact vector_get_set_ne _ _ h

/-- Writing one bit of an allocated buffer. -/
theorem State.bufWrite_eq_alloc (s : State) {b : BufIx} {bits : BitSeq} (i : Nat) (v : Bool)
    (h : s.buf[b] = some bits) : s.bufWrite b i v = s.bufAlloc b (bits.set i v) := by
  simp [State.bufWrite, State.bufAlloc, h]

@[simp] theorem State.unitAt_setUnit_self (s : State) (u : UnitIx) (x : LfsrUnit) : (s.setUnit u x).unitAt u = x := by
  simp [State.unitAt]

end Sys2Proof.Machine
end

