-- ==== Sys2Proof/Laws/Ops.lean ====
section
/-! SUPPORT. What each shared operation can do, said once: a command ends by completing or raising, and the source
readers either raise their one error or hand on what they read. -/

namespace Sys2Proof.Machine

@[simp] theorem complete_next_iff (s t : State) :
    complete s = .next t ↔ t = { s with status := { err := .ok, fault := s.status.fault } } := by
  simp [complete, Status.completed, eq_comm]

@[simp] theorem raiseError_next_iff (e : ErrCode) (s t : State) :
    raiseError e s = .next t ↔ t = { s with status := { err := e, fault := true } } := by
  simp [raiseError, Status.raised, eq_comm]

theorem withBuf_none {b : BufIx} {s : State} (k : BitSeq → Result) (h : s.buf[b] = none) :
    withBuf b s k = raiseError .notAllocated s := by
  simp only [withBuf, State.bufBits, h]

theorem withBuf_some {b : BufIx} {s : State} {bits : BitSeq} (k : BitSeq → Result) (h : s.buf[b] = some bits) :
    withBuf b s k = k bits := by
  simp only [withBuf, State.bufBits, h]

/-- Reading a source answers the error, or what the rest answers on the sequence read. -/
theorem withBuf_next {b : BufIx} {s t : State} {k : BitSeq → Result} (h : withBuf b s k = .next t) :
    (s.buf[b] = none ∧ raiseError .notAllocated s = .next t) ∨ ∃ bits, s.buf[b] = some bits ∧ k bits = .next t := by
  rcases hb : s.buf[b] with _ | bits
  · exact .inl ⟨rfl, by rwa [withBuf_none k hb] at h⟩
  · exact .inr ⟨bits, rfl, by rwa [withBuf_some k hb] at h⟩

theorem withIndex_of_le {i : Word} {len : Nat} {s : State} (k : Nat → Result) (h : len ≤ i.toNat) :
    withIndex i len s k = raiseError .indexOutOfRange s := by
  simp only [withIndex, if_pos h]

theorem withIndex_of_lt {i : Word} {len : Nat} {s : State} (k : Nat → Result) (h : i.toNat < len) :
    withIndex i len s k = k i.toNat := by
  simp only [withIndex, if_neg (Nat.not_le.2 h)]

/-- Checking a position answers the error, or what the rest answers on a position below the length. -/
theorem withIndex_next {i : Word} {len : Nat} {s t : State} {k : Nat → Result} (h : withIndex i len s k = .next t) :
    (len ≤ i.toNat ∧ raiseError .indexOutOfRange s = .next t) ∨ (i.toNat < len ∧ k i.toNat = .next t) := by
  rcases Nat.lt_or_ge i.toNat len with hi | hi
  · exact .inr ⟨hi, by rwa [withIndex_of_lt k hi] at h⟩
  · exact .inl ⟨hi, by rwa [withIndex_of_le k hi] at h⟩

theorem withUnit_of_cfg {u : UnitIx} {s : State} (k : LfsrUnit → Result) (h : s.lfsr[u].cfg = true) :
    withUnit u s k = k s.lfsr[u] := by
  simp only [withUnit, State.unitAt, h, if_true]

theorem withUnit_of_not_cfg {u : UnitIx} {s : State} (k : LfsrUnit → Result) (h : s.lfsr[u].cfg = false) :
    withUnit u s k = raiseError .notConfigured s := by
  simp only [withUnit, State.unitAt, h, Bool.false_eq_true, if_false]

/-- Using a unit answers the error, or what the rest answers on a configured unit. -/
theorem withUnit_next {u : UnitIx} {s t : State} {k : LfsrUnit → Result} (h : withUnit u s k = .next t) :
    (s.lfsr[u].cfg = false ∧ raiseError .notConfigured s = .next t) ∨
      (s.lfsr[u].cfg = true ∧ k s.lfsr[u] = .next t) := by
  rcases hc : s.lfsr[u].cfg
  · exact .inl ⟨rfl, by rwa [withUnit_of_not_cfg k hc] at h⟩
  · exact .inr ⟨rfl, by rwa [withUnit_of_cfg k hc] at h⟩

theorem withCv_of_valid {s : State} (k : CorrVector → Result) (h : s.cv.valid = true) : withCv s k = k s.cv := by
  simp [withCv, h]

theorem withCv_of_not_valid {s : State} (k : CorrVector → Result) (h : s.cv.valid = false) :
    withCv s k = raiseError .notAllocated s := by
  simp [withCv, h]

/-- Reading the correlation vector answers the error, or what the rest answers on a valid one. -/
theorem withCv_next {s t : State} {k : CorrVector → Result} (h : withCv s k = .next t) :
    (s.cv.valid = false ∧ raiseError .notAllocated s = .next t) ∨ (s.cv.valid = true ∧ k s.cv = .next t) := by
  rcases hv : s.cv.valid
  · exact .inl ⟨rfl, by rwa [withCv_of_not_valid k hv] at h⟩
  · exact .inr ⟨rfl, by rwa [withCv_of_valid k hv] at h⟩

/-- Reading two sources of one length answers an error, or what the rest answers on both. -/
theorem withPair_next {ba bb : BufIx} {s t : State} {k : BitSeq → BitSeq → Result} (h : withPair ba bb s k = .next t) :
    (∃ e, e ≠ .ok ∧ raiseError e s = .next t) ∨
      ∃ x y, s.buf[ba] = some x ∧ s.buf[bb] = some y ∧ x.length = y.length ∧ k x y = .next t := by
  unfold withPair at h
  rcases withBuf_next h with ⟨-, h⟩ | ⟨x, hx, h⟩
  · exact .inl ⟨_, by decide, h⟩
  rcases withBuf_next h with ⟨-, h⟩ | ⟨y, hy, h⟩
  · exact .inl ⟨_, by decide, h⟩
  split at h
  · exact .inl ⟨_, by decide, h⟩
  · exact .inr ⟨x, y, hx, hy, by omega, h⟩

end Sys2Proof.Machine
end

