-- ==== Sys2Proof/Laws/Exec.lean ====
section
/-! SUPPORT. What a command can do, said once: `exec` either raises an error code, or completes with the command's
effect. Every whole-machine rule is derived from this, and no later proof unfolds a meaning. -/

namespace Sys2Proof.Machine

/-- The sequence a buffer holds, the empty one standing for none. -/
def State.seqAt (s : State) (b : BufIx) : BitSeq := s.buf[b].getD []

theorem State.seqAt_of_some {s : State} {b : BufIx} {bits : BitSeq} (h : s.buf[b] = some bits) : s.seqAt b = bits := by
  rw [State.seqAt, h, Option.getD_some]

/-- The writes of a command that completes, less those of `STATUS`. -/
def effect (i : Instr) (s : State) : State :=
  match i with
  | .bnew bd => s.bufAlloc bd (List.replicate (sint64 (s.arg 0)).toNat false)
  | .bget ba => s.setRes 0 (bitWord (bitAt (s.seqAt ba) (s.arg 0).toNat))
  | .bset bd => s.bufAlloc bd ((s.seqAt bd).set (s.arg 0).toNat ((s.arg 1).getLsbD 0))
  | .blen ba => s.setRes 0 (zext64 (s.seqAt ba).length)
  | .lnew u => s.setUnit u { cfg := true, state := s.arg 0, taps := s.arg 1, width := (s.arg 2).toNat }
  | .lfb u => s.setRes 0 (bitWord (feedback s.lfsr[u].state s.lfsr[u].taps))
  | .lshift u =>
    (s.setUnit u { s.lfsr[u] with state := (shift s.lfsr[u].state s.lfsr[u].taps s.lfsr[u].width).1 }).setRes 0
      (bitWord (feedback s.lfsr[u].state s.lfsr[u].taps))
  | .lrd u => ((s.setRes 0 s.lfsr[u].state).setRes 1 s.lfsr[u].taps).setRes 2 (zext64 s.lfsr[u].width)
  | .gold bd => goldEffect bd (s.arg 0).toNat s
  | .spenc bd ba bb => s.bufAlloc bd (spread (s.seqAt ba) (s.seqAt bb))
  | .spdec bd ba bb => s.bufAlloc bd (spread (s.seqAt ba) (s.seqAt bb))
  | .sig ba => s.setRes 0 (word64 (sig (bitAt (s.seqAt ba) (s.arg 0).toNat)))
  | .nxcorr ba bb =>
    (s.setRes 0 (word64 (csum (s.seqAt ba) (s.seqAt bb)))).setRes 1 (zext64 (s.seqAt ba).length)
  | .csum ba bb => s.setRes 0 (word64 (csum (s.seqAt ba) (s.seqAt bb)))
  | .pacorr ba =>
    s.setCv { valid := true, len := (s.seqAt ba).length, den := (s.seqAt ba).length,
              val := (List.range (s.seqAt ba).length).map (acorr (s.seqAt ba)) }
  | .maxoff => ((s.setRes 0 (zext64 (maxoff s.cv.val))).setRes 1 (zext64 s.cv.den)).setRes 2 (zext64 s.cv.len)
  | .cvrd =>
    ((s.setRes 0 (word64 (s.cv.val.getD (s.arg 0).toNat 0))).setRes 1 (zext64 s.cv.den)).setRes 2 (zext64 s.cv.len)

section effect_frame

variable (i : Instr) (s : State)

@[simp] theorem effect_params : (effect i s).params = s.params := by cases i <;> rfl
@[simp] theorem effect_a : (effect i s).a = s.a := by cases i <;> rfl
@[simp] theorem effect_cmd : (effect i s).cmd = s.cmd := by cases i <;> rfl
@[simp] theorem effect_status : (effect i s).status = s.status := by cases i <;> rfl
@[simp] theorem effect_pending : (effect i s).pending = s.pending := by cases i <;> rfl
@[simp] theorem effect_observed : (effect i s).observed = s.observed := by cases i <;> rfl

end effect_frame

/-- What must hold for a command to complete. -/
def Completes (i : Instr) (s : State) : Prop :=
  match i with
  | .bnew _ => 0 < sint64 (s.arg 0) ∧ sint64 (s.arg 0) ≤ s.params.maxLen
  | .bget ba => (∃ x, s.buf[ba] = some x) ∧ (s.arg 0).toNat < (s.seqAt ba).length
  | .bset bd => (∃ x, s.buf[bd] = some x) ∧ (s.arg 0).toNat < (s.seqAt bd).length ∧ (s.arg 1).toNat ≤ 1
  | .blen ba => ∃ x, s.buf[ba] = some x
  | .lnew _ =>
    1 ≤ (s.arg 2).toNat ∧ (s.arg 2).toNat ≤ 64 ∧ badSeed (s.arg 2).toNat (s.arg 0) = false ∧
      badTaps (s.arg 2).toNat (s.arg 1) = false
  | .lfb u | .lshift u | .lrd u => s.lfsr[u].cfg = true
  | .gold _ =>
    1 ≤ (s.arg 0).toNat ∧ (s.arg 0).toNat ≤ 64 ∧ (s.arg 0).toNat ≤ s.params.goldNMax ∧
      pairError (s.arg 0).toNat (s.arg 1) (s.arg 2) = none ∧ pairError (s.arg 0).toNat (s.arg 3) (s.arg 4) = none
  | .spenc _ ba bb | .spdec _ ba bb => (∃ x, s.buf[ba] = some x) ∧ ∃ y, s.buf[bb] = some y
  | .sig ba => (∃ x, s.buf[ba] = some x) ∧ (s.arg 0).toNat < (s.seqAt ba).length
  | .nxcorr ba bb | .csum ba bb =>
    (∃ x, s.buf[ba] = some x) ∧ (∃ y, s.buf[bb] = some y) ∧ (s.seqAt ba).length = (s.seqAt bb).length
  | .pacorr ba => ∃ x, s.buf[ba] = some x
  | .maxoff => s.cv.valid = true
  | .cvrd => s.cv.valid = true ∧ (s.arg 0).toNat < s.cv.len

/-- The error a command raises, none where it completes: the checks of its rule in their order (60_exceptions.md R206). -/
def errorOf (i : Instr) (s : State) : Option ErrCode :=
  match i with
  | .bnew _ =>
    if sint64 (s.arg 0) ≤ 0 then some .invalidLength
    else if (s.params.maxLen : Int) < sint64 (s.arg 0) then some .capacityExceeded else none
  | .bget ba | .sig ba =>
    if s.buf[ba] = none then some .notAllocated
    else if (s.seqAt ba).length ≤ (s.arg 0).toNat then some .indexOutOfRange else none
  | .bset bd =>
    if s.buf[bd] = none then some .notAllocated
    else if (s.seqAt bd).length ≤ (s.arg 0).toNat then some .indexOutOfRange
    else if 1 < (s.arg 1).toNat then some .invalidBit else none
  | .blen ba | .pacorr ba => if s.buf[ba] = none then some .notAllocated else none
  | .lnew _ =>
    if (s.arg 2).toNat < 1 ∨ 64 < (s.arg 2).toNat then some .invalidWidth
    else if badSeed (s.arg 2).toNat (s.arg 0) = true then some .invalidSeed
    else if badTaps (s.arg 2).toNat (s.arg 1) = true then some .invalidTap else none
  | .lfb u | .lshift u | .lrd u => if s.lfsr[u].cfg = true then none else some .notConfigured
  | .gold _ =>
    if (s.arg 0).toNat < 1 ∨ 64 < (s.arg 0).toNat then some .invalidWidth
    else if s.params.goldNMax < (s.arg 0).toNat then some .capacityExceeded
    else (pairError (s.arg 0).toNat (s.arg 1) (s.arg 2)).or (pairError (s.arg 0).toNat (s.arg 3) (s.arg 4))
  | .spenc _ ba bb | .spdec _ ba bb =>
    if s.buf[ba] = none then some .notAllocated else if s.buf[bb] = none then some .notAllocated else none
  | .nxcorr ba bb | .csum ba bb =>
    if s.buf[ba] = none then some .notAllocated
    else if s.buf[bb] = none then some .notAllocated
    else if (s.seqAt ba).length ≠ (s.seqAt bb).length then some .lengthMismatch else none
  | .maxoff => if s.cv.valid = true then none else some .notAllocated
  | .cvrd =>
    if s.cv.valid = true then if s.cv.len ≤ (s.arg 0).toNat then some .indexOutOfRange else none
    else some .notAllocated

/-- What `exec` answers: it raises the command's error, or completes with its effect. -/
def Ends (i : Instr) (s : State) : Prop :=
  (∃ e, e ≠ ErrCode.ok ∧ errorOf i s = some e ∧ exec i s = raiseError e s) ∨
    (errorOf i s = none ∧ Completes i s ∧ exec i s = complete (effect i s))

theorem ends_bnew (bd : BufIx) (s : State) : Ends (.bnew bd) s := by
  simp only [Ends, exec, execBnew, Completes, effect, errorOf]
  split
  · exact .inl ⟨_, by decide, rfl, rfl⟩
  split
  · exact .inl ⟨_, by decide, rfl, rfl⟩
  · exact .inr ⟨rfl, by omega, rfl⟩

theorem ends_bget (ba : BufIx) (s : State) : Ends (.bget ba) s := by
  simp only [Ends, exec, execBget, Completes, effect, errorOf]
  rcases hb : s.buf[ba] with _ | x
  · exact .inl ⟨_, by decide, rfl, withBuf_none _ hb⟩
  rw [withBuf_some _ hb, State.seqAt_of_some hb, if_neg (by simp)]
  split <;> rename_i h
  · exact .inl ⟨_, by decide, rfl, withIndex_of_le _ h⟩
  · exact .inr ⟨rfl, ⟨⟨x, rfl⟩, by omega⟩, withIndex_of_lt _ (by omega)⟩

theorem ends_bset (bd : BufIx) (s : State) : Ends (.bset bd) s := by
  simp only [Ends, exec, execBset, Completes, effect, errorOf]
  rcases hb : s.buf[bd] with _ | x
  · exact .inl ⟨_, by decide, rfl, withBuf_none _ hb⟩
  rw [withBuf_some _ hb, State.seqAt_of_some hb, if_neg (by simp)]
  split <;> rename_i h
  · exact .inl ⟨_, by decide, rfl, withIndex_of_le _ h⟩
  rw [withIndex_of_lt _ (by omega)]
  split
  · exact .inl ⟨_, by decide, rfl, rfl⟩
  · exact .inr ⟨rfl, ⟨⟨x, rfl⟩, by omega, by omega⟩, by rw [State.bufWrite_eq_alloc s _ _ hb]⟩

theorem ends_blen (ba : BufIx) (s : State) : Ends (.blen ba) s := by
  simp only [Ends, exec, execBlen, Completes, effect, errorOf]
  rcases hb : s.buf[ba] with _ | x
  · exact .inl ⟨_, by decide, rfl, withBuf_none _ hb⟩
  · exact .inr ⟨rfl, ⟨x, rfl⟩, by rw [withBuf_some _ hb, State.seqAt_of_some hb]⟩

theorem ends_lnew (u : UnitIx) (s : State) : Ends (.lnew u) s := by
  simp only [Ends, exec, execLnew, Completes, effect, errorOf]
  split
  · exact .inl ⟨_, by decide, rfl, rfl⟩
  split
  · exact .inl ⟨_, by decide, rfl, rfl⟩
  split
  · exact .inl ⟨_, by decide, rfl, rfl⟩
  · exact .inr ⟨rfl, by simp_all; omega, rfl⟩

theorem ends_lfb (u : UnitIx) (s : State) : Ends (.lfb u) s := by
  simp only [Ends, exec, execLfb, Completes, effect, errorOf]
  rcases hc : s.lfsr[u].cfg
  · exact .inl ⟨_, by decide, rfl, withUnit_of_not_cfg _ hc⟩
  · exact .inr ⟨rfl, rfl, withUnit_of_cfg _ hc⟩

theorem ends_lshift (u : UnitIx) (s : State) : Ends (.lshift u) s := by
  simp only [Ends, exec, execLshift, Completes, effect, errorOf]
  rcases hc : s.lfsr[u].cfg
  · exact .inl ⟨_, by decide, rfl, withUnit_of_not_cfg _ hc⟩
  · exact .inr ⟨rfl, rfl, by rw [withUnit_of_cfg _ hc, hc]; rfl⟩

theorem ends_lrd (u : UnitIx) (s : State) : Ends (.lrd u) s := by
  simp only [Ends, exec, execLrd, Completes, effect, errorOf]
  rcases hc : s.lfsr[u].cfg
  · exact .inl ⟨_, by decide, rfl, withUnit_of_not_cfg _ hc⟩
  · exact .inr ⟨rfl, rfl, withUnit_of_cfg _ hc⟩

/-- A pair's error is never the code OK. -/
theorem pairError_ne_ok {n : Nat} {t seed : Word} {e : ErrCode} (h : pairError n t seed = some e) : e ≠ .ok := by
  unfold pairError at h
  split at h
  · cases h; decide
  split at h
  · cases h; decide
  split at h
  · cases h; decide
  · cases h

theorem ends_gold (bd : BufIx) (s : State) : Ends (.gold bd) s := by
  simp only [Ends, exec, execGold, Completes, effect, errorOf]
  split
  · exact .inl ⟨_, by decide, rfl, rfl⟩
  split
  · exact .inl ⟨_, by decide, rfl, rfl⟩
  rcases h1 : pairError (s.arg 0).toNat (s.arg 1) (s.arg 2) with _ | e
  · rcases h2 : pairError (s.arg 0).toNat (s.arg 3) (s.arg 4) with _ | e
    · exact .inr ⟨rfl, ⟨by omega, by omega, by omega, rfl, rfl⟩, rfl⟩
    · exact .inl ⟨e, pairError_ne_ok h2, rfl, rfl⟩
  · exact .inl ⟨e, pairError_ne_ok h1, rfl, rfl⟩

/-- SPENC and SPDEC, whose operation is one (43_spreader.md R152). -/
theorem ends_spenc (bd ba bb : BufIx) (s : State) : Ends (.spenc bd ba bb) s := by
  simp only [Ends, exec, execSpenc, spreadBuffers, Completes, effect, errorOf]
  rcases ha : s.buf[ba] with _ | x
  · exact .inl ⟨_, by decide, rfl, withBuf_none _ ha⟩
  rw [withBuf_some _ ha, State.seqAt_of_some ha]
  rcases hb : s.buf[bb] with _ | y
  · exact .inl ⟨_, by decide, rfl, withBuf_none _ hb⟩
  · exact .inr ⟨rfl, ⟨⟨x, rfl⟩, y, rfl⟩, by rw [withBuf_some _ hb, State.seqAt_of_some hb]⟩

theorem ends_spdec (bd ba bb : BufIx) (s : State) : Ends (.spdec bd ba bb) s := ends_spenc bd ba bb s

theorem ends_sig (ba : BufIx) (s : State) : Ends (.sig ba) s := by
  simp only [Ends, exec, execSig, Completes, effect, errorOf]
  rcases hb : s.buf[ba] with _ | x
  · exact .inl ⟨_, by decide, rfl, withBuf_none _ hb⟩
  rw [withBuf_some _ hb, State.seqAt_of_some hb, if_neg (by simp)]
  split <;> rename_i h
  · exact .inl ⟨_, by decide, rfl, withIndex_of_le _ h⟩
  · exact .inr ⟨rfl, ⟨⟨x, rfl⟩, by omega⟩, withIndex_of_lt _ (by omega)⟩

theorem ends_nxcorr (ba bb : BufIx) (s : State) : Ends (.nxcorr ba bb) s := by
  simp only [Ends, exec, execNxcorr, withPair, Completes, effect, errorOf]
  rcases ha : s.buf[ba] with _ | x
  · exact .inl ⟨_, by decide, rfl, withBuf_none _ ha⟩
  rw [withBuf_some _ ha, State.seqAt_of_some ha, if_neg (by simp)]
  rcases hb : s.buf[bb] with _ | y
  · exact .inl ⟨_, by decide, rfl, withBuf_none _ hb⟩
  rw [withBuf_some _ hb, State.seqAt_of_some hb, if_neg (by simp)]
  split <;> rename_i h
  · exact .inl ⟨_, by decide, rfl, rfl⟩
  · exact .inr ⟨rfl, ⟨⟨x, rfl⟩, ⟨y, rfl⟩, by omega⟩, rfl⟩

theorem ends_csum (ba bb : BufIx) (s : State) : Ends (.csum ba bb) s := by
  simp only [Ends, exec, execCsum, withPair, Completes, effect, errorOf]
  rcases ha : s.buf[ba] with _ | x
  · exact .inl ⟨_, by decide, rfl, withBuf_none _ ha⟩
  rw [withBuf_some _ ha, State.seqAt_of_some ha, if_neg (by simp)]
  rcases hb : s.buf[bb] with _ | y
  · exact .inl ⟨_, by decide, rfl, withBuf_none _ hb⟩
  rw [withBuf_some _ hb, State.seqAt_of_some hb, if_neg (by simp)]
  split <;> rename_i h
  · exact .inl ⟨_, by decide, rfl, rfl⟩
  · exact .inr ⟨rfl, ⟨⟨x, rfl⟩, ⟨y, rfl⟩, by omega⟩, rfl⟩

theorem ends_pacorr (ba : BufIx) (s : State) : Ends (.pacorr ba) s := by
  simp only [Ends, exec, execPacorr, Completes, effect, errorOf]
  rcases hb : s.buf[ba] with _ | x
  · exact .inl ⟨_, by decide, rfl, withBuf_none _ hb⟩
  · exact .inr ⟨rfl, ⟨x, rfl⟩, by rw [withBuf_some _ hb, State.seqAt_of_some hb]⟩

theorem ends_maxoff (s : State) : Ends .maxoff s := by
  simp only [Ends, exec, execMaxoff, Completes, effect, errorOf]
  rcases hv : s.cv.valid
  · exact .inl ⟨_, by decide, rfl, withCv_of_not_valid _ hv⟩
  · exact .inr ⟨rfl, rfl, withCv_of_valid _ hv⟩

theorem ends_cvrd (s : State) : Ends .cvrd s := by
  simp only [Ends, exec, execCvrd, Completes, effect, errorOf]
  rcases hv : s.cv.valid
  · exact .inl ⟨_, by decide, rfl, withCv_of_not_valid _ hv⟩
  rw [withCv_of_valid _ hv, if_pos rfl]
  split <;> rename_i h
  · exact .inl ⟨_, by decide, rfl, withIndex_of_le _ h⟩
  · exact .inr ⟨rfl, ⟨rfl, by omega⟩, withIndex_of_lt _ (by omega)⟩

/-- Every command raises its error, or completes with its effect. -/
theorem exec_ends (i : Instr) (s : State) : Ends i s := by
  cases i with
  | bnew bd => exact ends_bnew bd s
  | bget ba => exact ends_bget ba s
  | bset bd => exact ends_bset bd s
  | blen ba => exact ends_blen ba s
  | lnew u => exact ends_lnew u s
  | lfb u => exact ends_lfb u s
  | lshift u => exact ends_lshift u s
  | lrd u => exact ends_lrd u s
  | gold bd => exact ends_gold bd s
  | spenc bd ba bb => exact ends_spenc bd ba bb s
  | spdec bd ba bb => exact ends_spdec bd ba bb s
  | sig ba => exact ends_sig ba s
  | nxcorr ba bb => exact ends_nxcorr ba bb s
  | csum ba bb => exact ends_csum ba bb s
  | pacorr ba => exact ends_pacorr ba s
  | maxoff => exact ends_maxoff s
  | cvrd => exact ends_cvrd s

/-- `exec` in one equation: the error of the command's checks, or its effect. -/
theorem exec_eq (i : Instr) (s : State) :
    exec i s = match errorOf i s with
      | some e => raiseError e s
      | none => complete (effect i s) := by
  rcases exec_ends i s with ⟨e, -, he, hx⟩ | ⟨he, -, hx⟩ <;> rw [hx, he]

/-- The condition of a command holds exactly when none of its checks fails. -/
theorem errorOf_eq_none_iff (i : Instr) (s : State) : errorOf i s = none ↔ Completes i s := by
  constructor
  · intro h
    rcases exec_ends i s with ⟨e, -, he, -⟩ | ⟨-, hc, -⟩
    · rw [he] at h; cases h
    · exact hc
  · intro h
    cases i <;> simp only [Completes] at h <;> simp only [errorOf] <;>
      split_ifs <;> first | rfl | (exfalso; omega) | simp_all

/-- No check of a command names the code OK. -/
theorem errorOf_ne_ok (i : Instr) (s : State) : errorOf i s ≠ some .ok := by
  intro h
  rcases exec_ends i s with ⟨e, hne, he, -⟩ | ⟨he, -, -⟩
  · rw [he] at h; exact hne (Option.some.inj h)
  · rw [he] at h; cases h

/-- The inversion of `exec`: the next state of a command is the raised one, or its effect with `ERR` at OK. -/
theorem exec_next {i : Instr} {s t : State} (h : exec i s = .next t) :
    (∃ e, e ≠ ErrCode.ok ∧ errorOf i s = some e ∧ t = { s with status := { err := e, fault := true } }) ∨
      (errorOf i s = none ∧ Completes i s ∧
        t = { effect i s with status := { err := .ok, fault := (effect i s).status.fault } }) := by
  rcases exec_ends i s with ⟨e, he, hs, hx⟩ | ⟨hs, hc, hx⟩
  · rw [hx, raiseError_next_iff] at h
    exact .inl ⟨e, he, hs, h⟩
  · rw [hx, complete_next_iff] at h
    exact .inr ⟨hs, hc, h⟩

/-- A command whose condition holds completes with its effect. -/
theorem exec_of_completes {i : Instr} {s : State} (h : Completes i s) : exec i s = complete (effect i s) := by
  rw [exec_eq, (errorOf_eq_none_iff i s).2 h]

/-- A command whose checks fail raises the first failing one's error. -/
theorem exec_of_error {i : Instr} {s : State} {e : ErrCode} (h : errorOf i s = some e) :
    exec i s = raiseError e s := by
  rw [exec_eq, h]

end Sys2Proof.Machine
end

