-- ==== Sys2Proof/Laws/Numbers.lean ====
section
/-! SUPPORT. The integer conventions and the bit-level functions: popcount and parity bit by bit, the mask, seeds and
taps, one bit of a shifted state, and the loop of the Gold generator one position at a time. -/

namespace Sys2Proof.Machine

/-- Counting the 1 bits of a natural number bit by bit. -/
theorem bitCount_eq_countP (k n : Nat) : bitCount k n = (List.range k).countP fun j => n.testBit j := by
  induction k generalizing n with
  | zero => rfl
  | succ k ih =>
    rw [bitCount, List.range_succ_eq_map, List.countP_cons, List.countP_map]
    split
    · subst_vars; simp
    · rw [ih, Nat.add_comm]
      congr 1
      · apply List.countP_congr
        intro j _
        simp [Nat.testBit_succ]
      · rcases Nat.mod_two_eq_zero_or_one n with h | h <;> simp [Nat.testBit_zero, h]

/-- `popcount` counts the bits of the word (00_scope.md R9). -/
theorem popcount_eq_countP (v : Word) : popcount v = (List.range 64).countP fun k => v.getLsbD k :=
  bitCount_eq_countP 64 v.toNat

/-- The parity of a count is the XOR of the bits counted. -/
theorem countP_odd_eq_foldl (p : Nat → Bool) (l : List Nat) (b : Bool) :
    l.foldl (fun f k => f ^^ p k) b = (b ^^ (l.countP p % 2 == 1)) := by
  induction l generalizing b with
  | nil => simp
  | cons x l ih =>
    rw [List.foldl_cons, ih, List.countP_cons]
    cases p x
    · simp
    · rcases Nat.mod_two_eq_zero_or_one (l.countP p) with h | h <;> simp [Nat.add_mod, h]

/-- `parity` is the XOR of all bits (00_scope.md R9). -/
theorem parity_eq_foldl (v : Word) : parity v = (List.range 64).foldl (fun f k => f ^^ v.getLsbD k) false := by
  rw [countP_odd_eq_foldl, parity, popcount_eq_countP, Bool.false_xor]

/-- The feedback is the XOR of the state bits at the tap positions (41_lfsr.md R120). -/
theorem feedback_eq_foldl (st taps : Word) :
    feedback st taps = (List.range 64).foldl (fun f k => f ^^ (st.getLsbD k && taps.getLsbD k)) false := by
  rw [feedback, parity_eq_foldl]
  simp only [BitVec.getLsbD_and]

@[simp] theorem feedback_zero (taps : Word) : feedback 0 taps = false := by
  simp [feedback]; rfl

/-- Bit `k` of `mask(w)` (00_scope.md R9). -/
@[simp] theorem mask_getLsbD (w k : Nat) : (mask w).getLsbD k = (decide (k < 64) && decide (k < w)) := by
  simp [mask, BitVec.getLsbD_ofNat, Nat.testBit_two_pow_sub_one]

@[simp] theorem mask_getElem (w k : Nat) (h : k < 64) : (mask w)[k] = decide (k < w) := by
  rw [← BitVec.getLsbD_eq_getElem h, mask_getLsbD, decide_eq_true h, Bool.true_and]

/-- A word has no bit at or above `w` exactly when masking leaves it nothing there (30_encoding.md R84). -/
theorem and_not_mask_eq_zero_iff (v : Word) (w : Nat) : v &&& ~~~mask w = 0 ↔ ∀ k, w ≤ k → v.getLsbD k = false := by
  constructor
  · intro h k hk
    have hb := congrArg (fun x : Word => x.getLsbD k) h
    rcases Nat.lt_or_ge k 64 with h64 | h64
    · rw [BitVec.getLsbD_eq_getElem h64]; simpa [h64, Nat.not_lt.2 hk] using hb
    · exact BitVec.getLsbD_of_ge _ _ h64
  · intro h
    apply BitVec.eq_of_getLsbD_eq
    intro k hk
    rcases Nat.lt_or_ge k w with hw | hw
    · simp [hk, hw]
    · have := h k hw
      rw [BitVec.getLsbD_eq_getElem hk] at this
      simp [hk, this]

/-- The same bound as a comparison of numbers. -/
theorem toNat_lt_two_pow_iff (v : Word) (w : Nat) : v.toNat < 2 ^ w ↔ ∀ k, w ≤ k → v.getLsbD k = false := by
  constructor
  · intro h k hk
    exact Nat.testBit_lt_two_pow (Nat.lt_of_lt_of_le h (Nat.pow_le_pow_right (by decide) hk))
  · intro h
    exact Nat.lt_pow_two_of_testBit _ fun k hk => h k hk

theorem badTaps_eq_false_iff (w : Nat) (t : Word) : badTaps w t = false ↔ ∀ k, w ≤ k → t.getLsbD k = false := by
  rw [badTaps, bne_eq_false_iff_eq]
  exact and_not_mask_eq_zero_iff t w

theorem badSeed_eq_false_iff (w : Nat) (seed : Word) : badSeed w seed = false ↔ seed ≠ 0 ∧ seed.toNat < 2 ^ w := by
  simp [badSeed]

/-- A tap at or above the width, as a comparison of numbers. -/
theorem badTaps_eq_decide (w : Nat) (t : Word) : badTaps w t = decide (2 ^ w ≤ t.toNat) := by
  have h := (badTaps_eq_false_iff w t).trans (toNat_lt_two_pow_iff t w).symm
  rcases hb : badTaps w t
  · simpa using h.1 hb
  · rw [hb] at h
    simpa using h

/-- Bits that are all 0 at and above a bound add nothing to an XOR of bits. -/
theorem foldl_xor_cut (p : Nat → Bool) {n m : Nat} (b : Bool) (hn : n ≤ m) (hp : ∀ k, n ≤ k → p k = false) :
    (List.range m).foldl (fun f k => f ^^ p k) b = (List.range n).foldl (fun f k => f ^^ p k) b := by
  obtain ⟨d, rfl⟩ := Nat.exists_eq_add_of_le hn
  induction d with
  | zero => rfl
  | succ d ih =>
    rw [← Nat.add_assoc, List.range_succ, List.foldl_append, ih (by omega)]
    simp [hp (n + d) (by omega)]

/-- An XOR of bits depends only on the bits below its bound. -/
theorem foldl_xor_congr {p q : Nat → Bool} {n : Nat} (b : Bool) (h : ∀ k, k < n → p k = q k) :
    (List.range n).foldl (fun f k => f ^^ p k) b = (List.range n).foldl (fun f k => f ^^ q k) b := by
  induction n with
  | zero => rfl
  | succ n ih =>
    rw [List.range_succ, List.foldl_append, List.foldl_append, ih fun k hk => h k (by omega)]
    simp [h n (by omega)]

/-- The feedback bit a shift returns is that of the state before it (41_lfsr.md R121). -/
@[simp] theorem shift_snd (st taps : Word) (w : Nat) : (shift st taps w).2 = feedback st taps := rfl

/-- One bit of the state after a shift: the feedback enters at bit 0, and bit `w` is lost (41_lfsr.md R121). -/
theorem shift_fst_getLsbD (st taps : Word) (w k : Nat) :
    (shift st taps w).1.getLsbD k =
      (decide (k < 64) && decide (k < w) && if k = 0 then feedback st taps else st.getLsbD (k - 1)) := by
  rcases Nat.lt_or_ge k 64 with h64 | h64
  · rcases k with _ | k
    · cases hf : feedback st taps <;> simp [shift, hf, bitWord, zext64]
    · have hk : k < 64 := by omega
      cases hf : feedback st taps <;> simp [shift, hf, bitWord, zext64, h64, Bool.and_comm, BitVec.getLsbD_eq_getElem hk]
  · simp [BitVec.getLsbD_of_ge _ _ h64, Nat.not_lt.2 h64]

/-- A shifted state has no bit at or above the width (10_state.md R33). -/
theorem shift_fst_within (st taps : Word) (w : Nat) : (shift st taps w).1 &&& ~~~mask w = 0 := by
  rw [and_not_mask_eq_zero_iff]
  intro k hk
  simp [shift_fst_getLsbD, Nat.not_lt.2 hk]

/-- The Gold loop hands its accumulator on, reversed, before the bits it makes. -/
theorem goldLoop_acc (n : Nat) (p1 p2 : Word) (k : Nat) (x y : Word) (acc : BitSeq) :
    goldLoop n p1 p2 k x y acc =
      (acc.reverse ++ (goldLoop n p1 p2 k x y []).1, (goldLoop n p1 p2 k x y []).2) := by
  induction k generalizing x y acc with
  | zero => simp [goldLoop]
  | succ k ih => rw [goldLoop, ih, goldLoop, ih _ _ [_]]; simp

/-- The Gold loop one position at a time: the first bit, then the loop on the shifted states (42_gold.md R140). -/
theorem goldLoop_succ (n : Nat) (p1 p2 : Word) (k : Nat) (x y : Word) :
    goldLoop n p1 p2 (k + 1) x y [] =
      ((feedback x p1 ^^ feedback y p2) :: (goldLoop n p1 p2 k (shift x p1 n).1 (shift y p2 n).1 []).1,
        (goldLoop n p1 p2 k (shift x p1 n).1 (shift y p2 n).1 []).2) := by
  rw [goldLoop, goldLoop_acc]; simp

@[simp] theorem goldLoop_length (n : Nat) (p1 p2 : Word) (k : Nat) (x y : Word) :
    (goldLoop n p1 p2 k x y []).1.length = k := by
  induction k generalizing x y with
  | zero => rfl
  | succ k ih => rw [goldLoop_succ]; simp [ih]

/-- The final states of the Gold loop have no bit at or above the width, if the first ones have none. -/
theorem goldLoop_within (n : Nat) (p1 p2 : Word) (k : Nat) (x y : Word) (hx : x &&& ~~~mask n = 0)
    (hy : y &&& ~~~mask n = 0) :
    (goldLoop n p1 p2 k x y []).2.1 &&& ~~~mask n = 0 ∧ (goldLoop n p1 p2 k x y []).2.2 &&& ~~~mask n = 0 := by
  induction k generalizing x y with
  | zero => exact ⟨hx, hy⟩
  | succ k ih => rw [goldLoop_succ]; exact ih _ _ (shift_fst_within _ _ _) (shift_fst_within _ _ _)

@[simp] theorem spread_length (d c : BitSeq) : (spread d c).length = d.length := by simp [spread]

@[simp] theorem shifted_length (x : BitSeq) (k : Nat) : (shifted x k).length = x.length := by simp [shifted]

theorem sig_sq (b : Bool) : sig b * sig b = 1 := by cases b <;> decide

/-- One term of a correlation sum is +1 or -1. -/
theorem sig_mul_bounds (a b : Bool) : -1 ≤ sig a * sig b ∧ sig a * sig b ≤ 1 := by cases a <;> cases b <;> decide

@[simp] theorem csum_nil_left (b : BitSeq) : csum [] b = 0 := by simp [csum]

@[simp] theorem csum_cons (x y : Bool) (a b : BitSeq) : csum (x :: a) (y :: b) = sig x * sig y + csum a b := by
  simp [csum]

/-- A correlation sum lies in `[-L, L]` for the length of its first sequence (44_correlation.md R160). -/
theorem csum_bounds (a b : BitSeq) : -(a.length : Int) ≤ csum a b ∧ csum a b ≤ a.length := by
  induction a generalizing b with
  | nil => simp
  | cons x a ih =>
    cases b with
    | nil => simp [csum]; omega
    | cons y b =>
      have h1 := sig_mul_bounds x y
      have h2 := ih b
      simp only [csum_cons, List.length_cons]
      push_cast
      omega

theorem acorr_bounds (x : BitSeq) (k : Nat) : -(x.length : Int) ≤ acorr x k ∧ acorr x k ≤ x.length :=
  csum_bounds _ _

/-- A sequence shifted by 0 is itself. -/
@[simp] theorem shifted_zero (x : BitSeq) : shifted x 0 = x := by
  apply List.ext_getElem
  · simp
  · intro i h1 h2
    simp [shifted, bitAt, Nat.mod_eq_of_lt h2, List.getElem?_eq_getElem h2]

/-- The correlation sum of a sequence with itself is its length (44_correlation.md R170). -/
theorem csum_self_eq_length (a : BitSeq) : csum a a = a.length := by
  induction a with
  | nil => rfl
  | cons x a ih => simp only [csum_cons, sig_sq, ih, List.length_cons]; push_cast; omega

end Sys2Proof.Machine
end

