-- ==== Sys2Proof/Laws/Invariant.lean ====
section
/-! SUPPORT. Every operation on the block's stores keeps the invariant (10_state.md R30, R33, R35): one lemma per
operation, so that a rule about all commands unfolds none of them. -/

namespace Sys2Proof.Machine

variable {s : State}

theorem State.Inv.setRes (h : s.Inv) (k : Fin 3) (v : Word) : (s.setRes k v).Inv := h

theorem State.Inv.status (h : s.Inv) {st : Status} (hst : Status.Inv st) : State.Inv { s with status := st } :=
  ⟨h.1, h.2.1, h.2.2.1, h.2.2.2.1, hst⟩

theorem State.Inv.completed (h : s.Inv) : State.Inv { s with status := { err := .ok, fault := s.status.fault } } :=
  h.status fun hn => absurd rfl hn

theorem State.Inv.raised (h : s.Inv) (e : ErrCode) : State.Inv { s with status := { err := e, fault := true } } :=
  h.status fun _ => rfl

theorem State.Inv.bufAlloc (h : s.Inv) (b : BufIx) {bits : BitSeq} (h1 : 1 ≤ bits.length)
    (h2 : bits.length ≤ s.params.maxLen) : (s.bufAlloc b bits).Inv := by
  refine ⟨h.1, fun c => ?_, h.2.2⟩
  rw [State.bufAlloc_buf, vector_get_set]
  split
  · intro x hx
    cases hx
    exact ⟨h1, h2⟩
  · exact h.2.1 c

theorem State.Inv.bufWrite (h : s.Inv) (b : BufIx) (i : Nat) (v : Bool) : (s.bufWrite b i v).Inv := by
  rcases hb : s.buf[b] with _ | bits
  · have : s.bufWrite b i v = s := by
      have hs : s.buf.set b (s.buf[b].map fun bits => bits.set i v) = s.buf := by
        rw [hb, Option.map_none, ← hb, vector_set_get_self]
      rw [State.bufWrite, hs]
    rwa [this]
  · have hx := h.2.1 b bits hb
    rw [State.bufWrite_eq_alloc s i v hb]
    exact h.bufAlloc b (by simpa using hx.1) (by simpa using hx.2)

theorem State.Inv.setUnit (h : s.Inv) (u : UnitIx) {x : LfsrUnit} (hx : LfsrUnit.Inv x) : (s.setUnit u x).Inv := by
  refine ⟨h.1, h.2.1, fun c => ?_, h.2.2.2⟩
  rw [State.setUnit_lfsr, vector_get_set]
  split
  · exact hx
  · exact h.2.2.1 c

theorem State.Inv.setCv (h : s.Inv) {x : CorrVector} (hx : CorrVector.Inv s.params.maxLen x) : (s.setCv x).Inv :=
  ⟨h.1, h.2.1, h.2.2.1, hx, h.2.2.2.2⟩

/-- An allocated source of a state that holds the invariant has a legal length (10_state.md R30). -/
theorem State.Inv.seqAt (h : s.Inv) {b : BufIx} (hb : ∃ x, s.buf[b] = some x) :
    1 ≤ (s.seqAt b).length ∧ (s.seqAt b).length ≤ s.params.maxLen := by
  obtain ⟨x, hx⟩ := hb
  rw [State.seqAt_of_some hx]
  exact h.2.1 b x hx

/-- A configured unit with its state shifted holds the invariant (10_state.md R33, 41_lfsr.md R121). -/
theorem LfsrUnit.Inv.shifted {x : LfsrUnit} (h : LfsrUnit.Inv x) (hc : x.cfg = true) :
    LfsrUnit.Inv { x with state := (shift x.state x.taps x.width).1 } := by
  obtain ⟨h1, h2, h3, -⟩ := h.1 hc
  exact ⟨fun _ => ⟨h1, h2, h3, shift_fst_within _ _ _⟩, fun hn => by simp [hc] at hn⟩

end Sys2Proof.Machine
end

