-- ==== Sys2Proof/Laws/PerInstr.lean ====
section
/-! SUPPORT. The per-instruction family `TableRow`: the assembled word of every command fits the mask and the match of
its own row of spec/opcode_table.json, and its `OPC` selects that row (30_encoding.md R75, R76). -/

namespace Sys2Proof.Laws.TableRow

/-- The word of a command, under its row's mask (every bit its format does not use, and `OPC`), is the row's match, and
the row its `OPC` selects is its own. -/
def Statement (i : Instr) : Prop :=
  encode i &&& (~~~i.op.format.keep ||| 0xFF) = i.op.opcode ∧ rowOf (opcField (encode i)) = some i.op

/-- Masking a buffer command's word, field by field. -/
theorem buffers_and (op : Op) (bd ba bb : BufIx) (m : Word) (h : op.opcode &&& m = op.opcode)
    (hd : BitVec.ofNat 64 bd.val <<< 8 &&& m = 0) (ha : BitVec.ofNat 64 ba.val <<< 12 &&& m = 0)
    (hb : BitVec.ofNat 64 bb.val <<< 16 &&& m = 0) : assembleBuffers op bd ba bb &&& m = op.opcode := by
  have or_and (x y : Word) : (x ||| y) &&& m = (x &&& m) ||| (y &&& m) := by
    ext k hk; simp [Bool.and_or_distrib_right]
  rw [assembleBuffers, or_and, or_and, or_and, h, hd, ha, hb]
  simp

theorem field_d (b : BufIx) : BitVec.ofNat 64 b.val <<< 8 &&& 0xFF = (0 : Word) := by revert b; decide
theorem field_a (b : BufIx) : BitVec.ofNat 64 b.val <<< 12 &&& 0xFF = (0 : Word) := by revert b; decide
theorem field_b (b : BufIx) : BitVec.ofNat 64 b.val <<< 16 &&& 0xFF = (0 : Word) := by revert b; decide

/-- The `OPC` of a buffer command's word selects its row. -/
theorem buffers_row (op : Op) (bd ba bb : BufIx) : rowOf (opcField (assembleBuffers op bd ba bb)) = some op := by
  rw [opcField, buffers_and op bd ba bb 0xFF (by cases op <;> decide) (field_d bd) (field_a ba) (field_b bb)]
  cases op <;> rfl

theorem bnew (bd : BufIx) : Statement (.bnew bd) := by revert bd; unfold Statement; decide
theorem bget (ba : BufIx) : Statement (.bget ba) := by revert ba; unfold Statement; decide
theorem bset (bd : BufIx) : Statement (.bset bd) := by revert bd; unfold Statement; decide
theorem blen (ba : BufIx) : Statement (.blen ba) := by revert ba; unfold Statement; decide
theorem lnew (u : UnitIx) : Statement (.lnew u) := by revert u; unfold Statement; decide
theorem lfb (u : UnitIx) : Statement (.lfb u) := by revert u; unfold Statement; decide
theorem lshift (u : UnitIx) : Statement (.lshift u) := by revert u; unfold Statement; decide
theorem lrd (u : UnitIx) : Statement (.lrd u) := by revert u; unfold Statement; decide
theorem gold (bd : BufIx) : Statement (.gold bd) := by revert bd; unfold Statement; decide
theorem spenc (bd ba bb : BufIx) : Statement (.spenc bd ba bb) :=
  ⟨buffers_and .spenc bd ba bb (~~~Format.BDAB.keep ||| 0xFF) (by decide) (by revert bd; decide) (by revert ba; decide)
    (by revert bb; decide), buffers_row _ _ _ _⟩
theorem spdec (bd ba bb : BufIx) : Statement (.spdec bd ba bb) :=
  ⟨buffers_and .spdec bd ba bb (~~~Format.BDAB.keep ||| 0xFF) (by decide) (by revert bd; decide) (by revert ba; decide)
    (by revert bb; decide), buffers_row _ _ _ _⟩
theorem sig (ba : BufIx) : Statement (.sig ba) := by revert ba; unfold Statement; decide
theorem nxcorr (ba bb : BufIx) : Statement (.nxcorr ba bb) :=
  ⟨buffers_and .nxcorr 0 ba bb (~~~Format.BAB.keep ||| 0xFF) (by decide) (by decide) (by revert ba; decide)
    (by revert bb; decide), buffers_row _ _ _ _⟩
theorem csum (ba bb : BufIx) : Statement (.csum ba bb) :=
  ⟨buffers_and .csum 0 ba bb (~~~Format.BAB.keep ||| 0xFF) (by decide) (by decide) (by revert ba; decide)
    (by revert bb; decide), buffers_row _ _ _ _⟩
theorem pacorr (ba : BufIx) : Statement (.pacorr ba) := by revert ba; unfold Statement; decide
theorem maxoff : Statement .maxoff := by unfold Statement; decide
theorem cvrd : Statement .cvrd := by unfold Statement; decide

end Sys2Proof.Laws.TableRow
end

