-- ==== Sys2Proof/Laws/Window.lean ====
section
/-! SUPPORT. The register window and the step: which slot an access reaches, and what a step can do, said once. -/

namespace Sys2Proof.Machine

/-- The map of offsets reads back the slot of each offset (20_memory.md R52). -/
theorem slotAt_slotOffset (sl : Slot) : slotAt (slotOffset sl) = some sl := by
  cases sl with
  | cmd => rfl
  | status => rfl
  | arg k => revert k; decide
  | res k => revert k; decide
  | cap => rfl
  | reserved k => revert k; decide

/-- The slot at an offset has that offset. -/
theorem slotOffset_of_slotAt {off : Nat} {sl : Slot} (h : slotAt off = some sl) : slotOffset sl = off := by
  unfold slotAt at h
  split at h <;> cases h <;> rfl

/-- Every offset that is a multiple of 8 inside the window has a slot, and no other offset has one. -/
theorem slotAt_isSome_iff (off : Nat) (h : off < 128) : (slotAt off).isSome = true ↔ off % 8 = 0 := by
  revert off; decide

theorem slotOffset_lt (sl : Slot) : slotOffset sl < 128 := by
  cases sl with
  | cmd => decide
  | status => decide
  | arg k => have := k.isLt; simp only [slotOffset]; omega
  | res k => have := k.isLt; simp only [slotOffset]; omega
  | cap => decide
  | reserved k => have := k.isLt; simp only [slotOffset]; omega

/-- A 64-bit access at a slot's address reaches that slot (20_memory.md R51, R52). -/
theorem access_slotAddr (s : State) (sl : Slot) (k : Slot → Result) :
    access 64 (s.params.base + slotOffset sl) s k = k sl := by
  have h := slotOffset_lt sl
  simp [access, inWindow, slotAt_slotOffset, h]

theorem access_slot {s : State} {off : Nat} {sl : Slot} (k : Slot → Result) (h : slotAt off = some sl)
    (ho : off < 128) : access 64 (s.params.base + off) s k = k sl := by
  simp [access, inWindow, h, ho]

/-- An access is refused, or it is 64 bits wide, in the window, at a slot's offset, and goes on there. -/
theorem access_next {bits addr : Nat} {s t : State} {k : Slot → Result} (h : access bits addr s k = .next t) :
    bits = 64 ∧ s.params.base ≤ addr ∧ addr < s.params.base + 128 ∧
      ∃ sl, slotAt (addr - s.params.base) = some sl ∧ k sl = .next t := by
  unfold access at h
  split at h
  · cases h
  split at h
  · cases h
  rename_i hb hw
  simp only [inWindow, Bool.and_eq_true, decide_eq_true_eq, not_not] at hw
  split at h
  · cases h
  · rename_i sl hs
    exact ⟨by omega, hw.1, hw.2, sl, hs, h⟩

/-- A supported access goes on at a slot (20_memory.md R55). -/
theorem access_of_wf {bits addr : Nat} {s : State} (k : Slot → Result) (h : accessWf s.params bits addr = true) :
    ∃ sl, access bits addr s k = k sl := by
  simp only [accessWf, Bool.and_eq_true, beq_iff_eq, inWindow, decide_eq_true_eq, aligned] at h
  obtain ⟨⟨rfl, h1, h2⟩, h3⟩ := h
  obtain ⟨sl, hs⟩ := Option.isSome_iff_exists.1
    ((slotAt_isSome_iff (addr - s.params.base) (by omega)).2 h3)
  refine ⟨sl, ?_⟩
  have := access_slot (s := s) k hs (by omega)
  rwa [Nat.add_sub_cancel' h1] at this

theorem step_nil {s : State} (h : s.pending = []) : step s = .next s := by
  simp only [step, nextHostStep, h]

theorem step_cons {s : State} {x : HostStep} {rest : List HostStep} (h : s.pending = x :: rest) :
    step s = hostStep x { s with pending := rest } := by
  simp only [step, nextHostStep, h]

/-- What a step that answers a next state can do: nothing, a read, a write that stores or is ignored, a command, an
illegal command, or a reset. -/
theorem step_next {s t : State} (h : step s = .next t) :
    (s.pending = [] ∧ t = s) ∨
      ∃ x rest, s.pending = x :: rest ∧
        ((∃ addr sl, x = .read 64 addr ∧ slotAt (addr - s.params.base) = some sl ∧
            t = { s with pending := rest, observed := s.observed ++ [readSlot s sl] }) ∨
          (∃ addr k v, x = .write 64 addr v ∧ addr = s.params.base + 0x10 + 8 * k.val ∧
            t = { s with pending := rest, a := s.a.set (k : Fin 5) v }) ∨
          (∃ addr v, x = .write 64 addr v ∧ t = { s with pending := rest }) ∨
          (∃ v i, x = .write 64 s.params.base v ∧ decode v = .ok i ∧
            exec i { s with cmd := v, pending := rest } = .next t) ∨
          (∃ v e, x = .write 64 s.params.base v ∧ decode v = .error e ∧
            t = { s with cmd := v, pending := rest, status := { err := .illegalCommand, fault := true } }) ∨
          (x = .reset ∧ t = blockReset { s with pending := rest })) := by
  rcases hp : s.pending with _ | ⟨x, rest⟩
  · rw [step_nil hp] at h
    cases h
    exact .inl ⟨rfl, rfl⟩
  refine .inr ⟨x, rest, rfl, ?_⟩
  rw [step_cons hp] at h
  cases x with
  | reset =>
    simp only [hostStep, Host.Outcome.next.injEq] at h
    exact .inr (.inr (.inr (.inr (.inr ⟨rfl, h.symm⟩))))
  | read bits addr =>
    obtain ⟨rfl, h1, h2, sl, hs, h⟩ := access_next h
    simp only [hostRead, Host.Outcome.next.injEq] at h
    refine .inl ⟨addr, sl, rfl, hs, ?_⟩
    rw [← h]
    cases sl <;> rfl
  | write bits addr v =>
    obtain ⟨rfl, h1, h2, sl, hs, hw⟩ := access_next h
    clear h
    have ha : addr = s.params.base + slotOffset sl := by
      have h1' : s.params.base ≤ addr := h1
      rw [slotOffset_of_slotAt hs]; exact (Nat.add_sub_cancel' h1').symm
    cases sl with
    | cmd =>
      have ha' : addr = s.params.base := ha
      subst ha'
      change runCommand v { s with pending := rest } = .next t at hw
      unfold runCommand at hw
      cases hd : decode v with
      | ok i => rw [hd] at hw; exact .inr (.inr (.inr (.inl ⟨v, i, rfl, hd, hw⟩)))
      | error e =>
        rw [hd] at hw
        exact .inr (.inr (.inr (.inr (.inl ⟨v, e, rfl, hd, (raiseError_next_iff _ _ _).1 hw⟩))))
    | arg k =>
      simp only [hostWrite, Host.Outcome.next.injEq] at hw
      exact .inr (.inl ⟨addr, k, v, rfl, by rw [ha, slotOffset]; omega, hw.symm⟩)
    | status => cases hw; exact .inr (.inr (.inl ⟨addr, v, rfl, rfl⟩))
    | res k => cases hw; exact .inr (.inr (.inl ⟨addr, v, rfl, rfl⟩))
    | cap => cases hw; exact .inr (.inr (.inl ⟨addr, v, rfl, rfl⟩))
    | reserved k => cases hw; exact .inr (.inr (.inl ⟨addr, v, rfl, rfl⟩))

@[simp] theorem core_run_zero (s : State) : Host.Core.run Sys2Proof.core 0 s = .next s := rfl

/-- A run of any machine of one step more, by its first step. -/
theorem run_succ (M : Host.Core) {s t : M.State} (h : M.step s = .next t) (k : Nat) : M.run (k + 1) s = M.run k t := by
  simp only [Host.Core.run, h]

/-- A run of this machine of one step more, by its first step. -/
theorem core_run_succ {s t : State} (h : step s = .next t) (k : Nat) :
    Host.Core.run Sys2Proof.core (k + 1) s = Host.Core.run Sys2Proof.core k t :=
  run_succ Sys2Proof.core h k

end Sys2Proof.Machine
end

