-- ==== Sys2Proof/Tests/Slice0.lean ====
section
/-! SUPPORT. The model's own tests. Expected results are the worked examples of the spec's rules and of
spec/95_test_vectors.md. `test_…` are checks on fixed values; `witness_…` show, for each obligation with hypotheses, a
concrete state and operands that meet them together, with one for each clause at a boundary value. -/

namespace Sys2Proof.Tests

open Sys2Proof Sys2Proof.Machine Sys2Proof.Spec

/-! ### WellFormed: each check refuses an ill-formed term -/

theorem test_params_default_wf : Params.default.wf = true := by decide
theorem test_params_goldNMax_zero_refused : Params.wf { maxLen := 8, goldNMax := 0, base := 0 } = false := by decide
theorem test_params_goldNMax_32_refused :
    Params.wf { maxLen := 2 ^ 32, goldNMax := 32, base := 0 } = false ∧
      Params.wf { maxLen := 2 ^ 31, goldNMax := 32, base := 0 } = false := by decide
theorem test_params_code_longer_than_buffer_refused :
    Params.wf { maxLen := 6, goldNMax := 3, base := 0 } = false ∧
      Params.wf { maxLen := 7, goldNMax := 3, base := 0 } = true := by decide
theorem test_params_maxLen_zero_refused : Params.wf { maxLen := 0, goldNMax := 1, base := 0 } = false := by decide
theorem test_params_maxLen_above_refused :
    Params.wf { maxLen := 2 ^ 31 + 1, goldNMax := 16, base := 0 } = false := by decide
theorem test_access_narrow_refused : HostStep.wf Params.default (.read 32 0x08) = false := by decide
theorem test_access_outside_window_refused :
    HostStep.wf Params.default (.write 64 128 0) = false ∧
      HostStep.wf { Params.default with base := 0x1000 } (.read 64 0xFF8) = false := by decide
theorem test_access_misaligned_refused : HostStep.wf Params.default (.read 64 0x0C) = false := by decide
theorem test_program_with_one_bad_step_refused :
    programWf Params.default [.read 64 0, .write 8 0x10 1, .reset] = false := by decide

/-! ### Decoding: words written out from the encodings of the spec -/

/-- 40_bitsequence.md R100 to R103: `bbbb_aaaa_dddd_oooooooo`. -/
theorem test_decode_bitsequence_words :
    decode 0b0000_0000_0000_0000_0000_0101_0000_0001 = .ok (.bnew 5) ∧
      decode 0b0000_0000_0000_0000_1100_0000_0000_0010 = .ok (.bget 12) ∧
      decode 0b0000_0000_0000_0000_0000_1010_0000_0011 = .ok (.bset 10) ∧
      decode 0b0000_0000_0000_0000_0011_0000_0000_0100 = .ok (.blen 3) := by decide

/-- 41_lfsr.md R122, R123, R124, R126. -/
theorem test_decode_lfsr_words :
    decode 0b0000_0000_0000_0000_0000_0001_0001_0000 = .ok (.lnew 1) ∧
      decode 0b0000_0000_0000_0000_0000_0001_0001_0001 = .ok (.lfb 1) ∧
      decode 0b0000_0000_0000_0000_0000_0001_0001_0010 = .ok (.lshift 1) ∧
      decode 0b0000_0000_0000_0000_0000_0000_0001_0011 = .ok (.lrd 0) := by decide

/-- 42_gold.md R141. -/
theorem test_decode_gold_word : decode 0b0000_0000_0000_0000_0000_1001_0010_0000 = .ok (.gold 9) := by decide

/-- 43_spreader.md R151, R152. -/
theorem test_decode_spreader_words :
    decode 0b0000_0000_0000_1000_0100_0010_0011_0000 = .ok (.spenc 2 4 8) ∧
      decode 0b0000_0000_0000_0001_0010_0011_0011_0001 = .ok (.spdec 3 2 1) := by decide

/-- 44_correlation.md R162 to R169. -/
theorem test_decode_correlation_words :
    decode 0b0000_0000_0000_0000_0100_0000_0100_0000 = .ok (.sig 4) ∧
      decode 0b0000_0000_0000_0010_0001_0000_0100_0001 = .ok (.nxcorr 1 2) ∧
      decode 0b0000_0000_0000_1111_0111_0000_0100_0010 = .ok (.csum 7 15) ∧
      decode 0b0000_0000_0000_0000_1001_0000_0100_0011 = .ok (.pacorr 9) ∧
      decode 0x00000044 = .ok .maxoff ∧ decode 0x00000045 = .ok .cvrd := by decide

/-- 30_encoding.md R77, by name: the upper half, unlisted opcodes (0x00 and 0xFF among them), a field the format does
not use, the reserved bits. -/
theorem test_decode_rejects_by_name :
    decode 0x0000000100000001 = .error .upperHalf ∧ decode 0 = .error .unknownOpcode ∧
      decode 0xFF = .error .unknownOpcode ∧ decode 0x05 = .error .unknownOpcode ∧
      decode 0x1001 = .error .strayField ∧ decode 0x00100045 = .error .strayField ∧
      decode 0x0210 = .error .strayField ∧ decodeBytes [1, 0, 0, 0] = .error .notEightLanes := by decide

/-- 20_memory.md R57: the first byte of a register is its low lane. -/
theorem test_decode_bytes_little_endian :
    decodeBytes [0x30, 0x02, 0x01, 0x00, 0x00, 0x00, 0x00, 0x00] = .ok (.spenc 2 0 1) := by decide

theorem test_decode_table_word : decodeTableWord 32 0x00012331 = some (.spdec 3 2 1) := by decide

/-! ### A small state -/

/-- Buffers, units and a correlation vector of the examples of the rules. -/
def demo : State :=
  { State.reset with
    buf := ((((State.reset.buf.set 1 (some [true, false, true, false, false, false, false])).set 2
      (some [true, true, true, true, true, true, false])).set 3 (some [false, true, false, false])).set 4
      (some [true, false])).set 15 (some [false])
    lfsr := #v[LfsrUnit.mk true 0x1 0x9 4, LfsrUnit.reset]
    cv := { valid := true, len := 7, den := 7, val := [7, -1, 3, -1, -1, 3, -1] } }

/-- `demo` with given argument registers. -/
def demoArgs (a0 a1 a2 a3 a4 : Word) : State := { demo with a := #v[a0, a1, a2, a3, a4] }

/-- `demo` with given host steps waiting. -/
def demoPending (hs : List HostStep) : State := { demo with pending := hs }

/-- The next state of a result, or a state standing for none. -/
def nextOr (d : State) : Result → State
  | .next t => t
  | .fault _ => d
  | .refused _ => d

/-- The result answers a next state. -/
def isNext : Result → Bool
  | .next _ => true
  | .fault _ => false
  | .refused _ => false

/-- Such a result is that next state: a witness says `isNext` of a premise that `exec` or `step` answers one. -/
theorem eq_next_of_isNext (d : State) {r : Result} (h : isNext r = true) : r = .next (nextOr d r) := by
  cases r <;> simp_all [isNext, nextOr]

/-- The refusal of a result, if it is one. -/
def refusalOf : Result → Option Refusal
  | .next _ => none
  | .fault _ => none
  | .refused r => some r

/-- The state after a command. -/
def run (i : Instr) (s : State) : State := nextOr s (exec i s)

theorem test_demo_inv : demo.Inv := by decide

/-! ### One step of each command: the example of its rule -/

/-- R100's example: `A0 = 8`, `BNEW b0`. -/
theorem test_bnew_eight_zeros :
    (run (.bnew 0) (demoArgs 8 0 0 0 0)).buf[0] = some (List.replicate 8 false) ∧
      (run (.bnew 0) (demoArgs 8 0 0 0 0)).status.err = .ok := by decide

/-- R100's corner case: the most negative length is not a capacity error. -/
theorem test_bnew_negative_length :
    (run (.bnew 0) (demoArgs 0x8000000000000000 0 0 0 0)).status = { err := .invalidLength, fault := true } := by decide

/-- R101's example: `buf[3] = "0100"`, `A0 = 1`. -/
theorem test_bget_reads_one : (run (.bget 3) (demoArgs 1 0 0 0 0)).r[0] = 1 := by decide

/-- R101's corner case: position -1. -/
theorem test_bget_negative_position :
    (run (.bget 3) (demoArgs 0xFFFFFFFFFFFFFFFF 0 0 0 0)).status.err = .indexOutOfRange := by decide

/-- R102: setting position 3 of `buf[3] = "0100"`. -/
theorem test_bset_sets_one_bit :
    (run (.bset 3) (demoArgs 3 1 0 0 0)).buf[3] = some [false, true, false, true] := by decide

/-- R102's corner case: `A1 = 2` raises although its bit 0 is 0. -/
theorem test_bset_invalid_bit : (run (.bset 3) (demoArgs 3 2 0 0 0)).status.err = .invalidBit := by decide

/-- R103. -/
theorem test_blen_seven : (run (.blen 1) demo).r[0] = 7 := by decide

/-- R122's example. -/
theorem test_lnew_example :
    (run (.lnew 0) (demoArgs 1 0x9 4 0 0)).lfsr[0] = { cfg := true, state := 0x1, taps := 0x9, width := 4 } := by decide

/-- R122's corner cases: `A0 = 16` and `A1 = 0x10` at width 4, `A1 = 0` accepted. -/
theorem test_lnew_corners :
    (run (.lnew 0) (demoArgs 16 0x9 4 0 0)).status.err = .invalidSeed ∧
      (run (.lnew 0) (demoArgs 1 0x10 4 0 0)).status.err = .invalidTap ∧
      (run (.lnew 0) (demoArgs 1 0 4 0 0)).status.err = .ok := by decide

/-- R123's example. -/
theorem test_lfb_example : (run (.lfb 0) demo).r[0] = 1 ∧ (run (.lfb 0) demo).lfsr = demo.lfsr := by decide

/-- R124's example, its first shift and the last of its sixteen from the state before (0x1 to 0x3). -/
theorem test_lshift_example :
    (run (.lshift 0) demo).lfsr[0].state = 0x3 ∧ (run (.lshift 0) demo).r[0] = 1 := by decide

/-- R124: at width 64 the top bit leaves the register. -/
theorem test_lshift_width_64 :
    (shift 0x8000000000000000 0x1 64).1 = 0 ∧ (shift 0x8000000000000000 0x8000000000000000 64).1 = 1 := by decide

/-- R126. -/
theorem test_lrd_reads_unit : (run (.lrd 0) demo).r = #v[0x1, 0x9, 4] := by decide

/-- R141's example (V-GOLD-2): the code 1010000, both units back at state 1. -/
theorem test_gold_example :
    (run (.gold 1) (demoArgs 3 0x5 1 0x6 1)).buf[1] = some [true, false, true, false, false, false, false] ∧
      (run (.gold 1) (demoArgs 3 0x5 1 0x6 1)).lfsr[0].state = 1 ∧
      (run (.gold 1) (demoArgs 3 0x5 1 0x6 1)).lfsr[1].state = 1 := by decide

/-- R141: the capacity check comes before the seed check. -/
theorem test_gold_capacity_first : (run (.gold 1) (demoArgs 17 0 0 0 0)).status.err = .capacityExceeded := by decide

/-- R151: `buf[1]` spread in place with the code `buf[4] = "10"`, which repeats. -/
theorem test_spenc_in_place :
    (run (.spenc 1 1 4) demo).buf[1] = some [false, false, false, false, true, false, true] := by decide

/-- R152: despreading that gives `buf[1]` back. -/
theorem test_spdec_restores :
    (run (.spdec 5 1 4) (run (.spenc 1 1 4) demo)).buf[5] = demo.buf[1] := by decide

/-- R162's example: `buf[4] = "10"`. -/
theorem test_sig_plus_and_minus_one :
    (run (.sig 4) (demoArgs 0 0 0 0 0)).r[0] = 1 ∧
      (run (.sig 4) (demoArgs 1 0 0 0 0)).r[0] = 0xFFFFFFFFFFFFFFFF := by decide

/-- R163's example: -1 over 7. -/
theorem test_nxcorr_example :
    (run (.nxcorr 1 2) demo).r[0] = 0xFFFFFFFFFFFFFFFF ∧ (run (.nxcorr 1 2) demo).r[1] = 7 := by decide

/-- R164's example. -/
theorem test_csum_example :
    (run (.csum 1 2) demo).r[0] = 0xFFFFFFFFFFFFFFFF ∧ (run (.csum 1 2) demo).r[1] = 0 := by decide

/-- R166's example (V-COR-3). -/
theorem test_pacorr_example :
    (run (.pacorr 1) demo).cv = { valid := true, len := 7, den := 7, val := [7, -1, 3, -1, -1, 3, -1] } := by decide

/-- R168's example. -/
theorem test_maxoff_example : (run .maxoff demo).r = #v[3, 7, 7] := by decide

/-- R169's example. -/
theorem test_cvrd_example : (run .cvrd (demoArgs 1 0 0 0 0)).r = #v[0xFFFFFFFFFFFFFFFF, 7, 7] := by decide

/-! ### The window and the step -/

/-- R27 and R52: `CAP` at offset 0x50, with the defaults. -/
theorem test_read_cap :
    (nextOr demo (step (demoPending [.read 64 0x50]))).observed = [0x0001000000011010] := by decide

/-- R25: `ERR` 10 and `FAULT` read as 0x1A after an illegal command. -/
theorem test_read_status_after_illegal :
    (nextOr demo (Host.Core.run core 2 (demoPending [.write 64 0 0, .read 64 8]))).observed = [0x1A] := by decide

/-- The first step after reset with a table word placed runs it (log 9). -/
theorem test_fetch_word_runs_first :
    (nextOr demo (step (State.reset.withFetchWord 32 0x00000044))).status = { err := .notAllocated, fault := true } ∧
      (nextOr demo (step (State.reset.withFetchWord 32 0x00000044))).cmd = 0x44 := by decide

/-- An access outside the window is refused by name (log 5). -/
theorem test_outside_window :
    refusalOf (step (demoPending [.read 64 128])) = some (.outsideWindow 128) ∧
      refusalOf (step { demo with params := { demo.params with base := 8 }, pending := [.write 64 0 0] }) =
        some (.outsideWindow 0) := by decide

/-- R87's example: the text "A". -/
theorem test_text_bits_of_A : textBits [0x41] = [false, true, false, false, false, false, false, true] := by decide

/-- R88, R89: the assembler text of R95, and a negative number. -/
theorem test_instr_text :
    instrText (.spenc 2 0 1) = "SPENC b2, b0, b1" ∧ instrText (.lshift 1) = "LSHIFT u1" ∧
      instrText .cvrd = "CVRD" ∧ numberWord (-1) = 0xFFFFFFFFFFFFFFFF := by decide

/-- R93, R94: `loadtext b0, "A"` and `gold b1, 3, 0x5, 1, 0x6, 1`. -/
theorem test_pseudo_instructions :
    (nextOr demo (runProgram (loadtextSteps Params.default 0 [0x41]) State.reset)).buf[0] =
        some [false, true, false, false, false, false, false, true] ∧
      (nextOr demo (runProgram (goldSteps Params.default 1 3 0x5 1 0x6 1) State.reset)).buf[1] =
        some [true, false, true, false, false, false, false] := by decide +kernel

/-! ### Witnesses: encoding -/

theorem witness_DecodedValueIsItsEncoding : decode 0x000FFF30 = .ok (.spenc 15 15 15) := by decide

theorem witness_DecodeFollowsOpcodeTable :
    decode 0x00010230 = .ok (.spenc 2 0 1) ∧ TableRow.mk "SPENC" 0x30 0xFFFFFFFFFFF000FF ∈ table ∧
      (0x00010230 : Word) &&& 0xFFFFFFFFFFF000FF = 0x30 := by
  refine ⟨by decide, ?_, by decide⟩
  simp [table]

theorem witness_AssembledWordsDecode : ("BNEW", [Operand.buf 5], (0x00000501 : Word), Instr.bnew 5) ∈ assembledWords := by
  simp [assembledWords]

/-- One value for each case of R77, at its lowest bit, and a value that is not illegal. -/
theorem witness_IllegalValuesRaiseIllegalCommand :
    (demoPending [.write 64 0 0x100000001]).pending = .write 64 (demoPending []).params.base 0x100000001 :: [] ∧
      Illegal 0x100000001 ∧ Illegal 0 ∧ Illegal 0x00100045 ∧ Illegal 0x00000145 ∧ ∃ i, decode 0x00000045 = .ok i := by
  refine ⟨by decide, .inl ⟨32, by decide, by decide⟩, .inr (.inl (by decide)), .inr (.inr ⟨(0x45, .N), ?_, by decide, 20,
    by decide, by decide, by decide⟩), .inr (.inr ⟨(0x45, .N), ?_, by decide, 8, by decide, by decide, by decide⟩),
    .cvrd, by decide⟩ <;> simp [opcodeMap]

theorem witness_StepRunsDecodedCommand :
    (demoPending [.write 64 0 0x12, .reset]).pending = .write 64 demo.params.base 0x12 :: [.reset] ∧
      decode 0x12 = .ok (.lshift 0) := by decide

theorem witness_AssembledTextIsEncoding :
    assemble "SPENC" [.buf 2, .buf 0, .buf 1] = some 0x00010230 ∧ assemble "CVRD" [] = some 0x45 := by decide

/-! ### Witnesses: the window -/

/-- The first and the last slot for a read. For a write: `CMD` with a command and with an illegal value, `A0`, `A4`, and
the ignored slots at the ends of their ranges. -/
theorem witness_WindowFollowsRegisterMap :
    (demoPending [.read 64 0]).pending = .read 64 (demo.params.base + 8 * (0 : Fin 16).val) :: [] ∧
      (demoPending [.read 64 0x78]).pending = .read 64 (demo.params.base + 8 * (15 : Fin 16).val) :: [] ∧
      (demoPending [.write 64 0 0x45]).pending = .write 64 (demo.params.base + 8 * (0 : Fin 16).val) 0x45 :: [] ∧
      decode 0x45 = .ok .cvrd ∧ decode 0 = .error .unknownOpcode ∧
      (2 : Fin 16).val = (0 : Fin 5).val + 2 ∧ (6 : Fin 16).val = (4 : Fin 5).val + 2 ∧
      ((1 : Fin 16) = 1 ∨ 7 ≤ (1 : Fin 16).val) ∧ ((7 : Fin 16) = 1 ∨ 7 ≤ (7 : Fin 16).val) ∧
      ((15 : Fin 16) = 1 ∨ 7 ≤ (15 : Fin 16).val) := by decide

theorem witness_CapHoldsParameters :
    Params.wf { maxLen := 2 ^ 31, goldNMax := 31, base := 0 } = true ∧
      Params.wf { maxLen := 1, goldNMax := 1, base := 0 } = true := by decide

/-- Too narrow at the first and too wide at the last address of the window; misaligned at its first and last. -/
theorem witness_UnsupportedAccessIsRefused :
    ((demo.params.base ≤ 0 ∧ 0 < demo.params.base + 128) ∧ 32 ≠ 64) ∧
      ((demo.params.base ≤ 127 ∧ 127 < demo.params.base + 128) ∧ 128 ≠ 64 ∧ (127 - demo.params.base) % 8 ≠ 0) ∧
      ((demo.params.base ≤ 1 ∧ 1 < demo.params.base + 128) ∧ (1 - demo.params.base) % 8 ≠ 0) ∧
      (demoPending [.write 64 127 0]).pending = .write 64 127 0 :: [] := by decide

/-! ### Witnesses: reset, invariants, errors -/

theorem witness_ResetSetsEveryPieceOfState : (demoPending [.reset]).pending = .reset :: [] := by decide

theorem witness_StepKeepsInvariant :
    (demoPending [.write 64 0 0x12]).Inv ∧
      isNext (step (demoPending [.write 64 0 0x12])) = true := by decide

theorem witness_IdleBlockHoldsItsState : State.reset.pending = [] := by decide

theorem witness_SupportedProgramsRunToTheirEnd :
    programWf demo.params [.write 64 0x10 8, .write 64 0 1, .read 64 0x78, .reset] = true := by decide

/-- `LFB u1` raises in `demo`. -/
theorem witness_RaisedCommandChangesOnlyStatus :
    isNext (exec (.lfb 1) demo) = true ∧ (run (.lfb 1) demo).status.err ≠ .ok := by decide

theorem witness_EveryCommandWritesStatus :
    isNext (exec (.lfb 0) demo) = true ∧ firstError (.lfb 0) demo = none ∧
      isNext (exec (.lfb 1) demo) = true ∧ firstError (.lfb 1) demo = some .notConfigured ∧
      isNext (step (demoPending [.write 64 0 0])) = true ∧
      (nextOr demo (step (demoPending [.write 64 0 0]))).status ≠ demo.status := by decide

theorem witness_ReportedErrorIsFirstFailingCheck :
    (demoPending [.write 64 0 0]).pending = .write 64 demo.params.base 0 :: [] ∧ decode 0 = .error .unknownOpcode ∧
      isNext (exec .cvrd (demoArgs 7 0 0 0 0)) = true := by decide

theorem witness_FaultIsClearedOnlyByReset :
    isNext (step { demo with status := ⟨.ok, true⟩, pending := [.write 64 0 0x11] }) = true ∧
      [HostStep.write 64 0 0x11].head? ≠ some .reset := by decide

/-- A command that completes and one that raises, for the rules about every command. -/
theorem witness_CommandsKeepHostWrittenRegisters :
    isNext (exec (.lshift 0) demo) = true ∧ isNext (exec (.blen 0) demo) = true := by decide

theorem witness_OnlyCommandsAndResetChangeTheBlock :
    isNext (step (demoPending [.write 64 0x30 5])) = true ∧
      (demoPending [.write 64 0x30 5]).pending.head? ≠ some .reset ∧
      ∀ v, (demoPending [.write 64 0x30 5]).pending.head? ≠ some (.write 64 demo.params.base v) := by
  refine ⟨by decide, by decide, fun v => ?_⟩
  simp [demoPending, demo, State.reset, Params.default]

/-- A register the rule does not name, and a named one of a command that raises. -/
theorem witness_OnlyNamedResultRegistersChange :
    isNext (exec (.nxcorr 1 2) demo) = true ∧ 2 ∉ writes (.nxcorr 1 2) ∧
      isNext (exec (.lrd 1) demo) = true ∧ (run (.lrd 1) demo).status.err ≠ .ok := by decide

theorem witness_CommandsDoNotDependOnStatus :
    isNext (exec (.csum 1 2) demo) = true ∧ (⟨.invalidBit, true⟩ : Status) ≠ demo.status := by decide

/-- Other values in `A2` to `A4`, which BSET does not read. -/
theorem witness_UnnamedArgumentsAreNotRead :
    (∀ k ∈ reads (.bset 3), (#v[3, 1, 7, 8, 9] : Vector Word 5)[k] = (demoArgs 3 1 0 0 0).a[k]) ∧
      isNext (exec (.bset 3) (demoArgs 3 1 0 0 0)) = true := by decide

theorem witness_StorageIsChangedOnlyByItsCommands :
    isNext (exec (.pacorr 2) demo) = true ∧ (run (.pacorr 2) demo).cv ≠ demo.cv := by decide

/-- `demo` and the same block with other registers. -/
theorem witness_StoredStateIsObservable :
    demo.Inv ∧ (demoArgs 1 2 3 4 5).Inv ∧
      ∀ (i : Instr) (a : Vector Word 5) (t t' : State),
        exec i { demo with a := a } = .next t → exec i { demoArgs 1 2 3 4 5 with a := a } = .next t' →
          t.status.err = t'.status.err ∧ (t.status.err = .ok → ∀ k ∈ writes i, t.r[k] = t'.r[k]) := by
  refine ⟨by decide, by decide, fun i a t t' h h' => ?_⟩
  have e : ({ demoArgs 1 2 3 4 5 with a := a } : State) = { demo with a := a } := rfl
  rw [e, h] at h'
  cases h'
  exact ⟨rfl, fun _ _ _ => rfl⟩

/-! ### Witnesses: buffers -/

/-- Lengths 0, the most negative, `MAXLEN + 1`, 1 and `MAXLEN`. -/
theorem witness_BnewAllocatesZeros :
    (demoArgs 0 0 0 0 0).a[0].toInt ≤ 0 ∧ (demoArgs 0x8000000000000000 0 0 0 0).a[0].toInt ≤ 0 ∧
      (demo.params.maxLen : Int) < (demoArgs 65537 0 0 0 0).a[0].toInt ∧
      ((demoArgs 1 0 0 0 0).a[0].toInt = (1 : Nat) ∧ 0 < 1 ∧ 1 ≤ demo.params.maxLen) ∧
      (demoArgs 65536 0 0 0 0).a[0].toInt = (65536 : Nat) ∧ 0 < 65536 ∧ 65536 ≤ demo.params.maxLen := by decide

/-- No sequence; the last position and the first one past it. BSET and SIG have the same clauses. -/
theorem witness_BgetReadsOneBit :
    demo.buf[0] = none ∧ demo.buf[3] = some [false, true, false, false] ∧
      [false, true, false, false].length ≤ (demoArgs 4 0 0 0 0).a[0].toNat ∧
      (demoArgs 3 0 0 0 0).a[0].toNat < [false, true, false, false].length := by decide

/-- As for BGET, and the bit values 2, 0 and 1. -/
theorem witness_BsetWritesOneBit :
    demo.buf[0] = none ∧ demo.buf[3] = some [false, true, false, false] ∧
      [false, true, false, false].length ≤ (demoArgs 4 2 0 0 0).a[0].toNat ∧
      (demoArgs 3 2 0 0 0).a[0].toNat < [false, true, false, false].length ∧ 1 < (demoArgs 3 2 0 0 0).a[1].toNat ∧
      (demoArgs 3 0 0 0 0).a[1] = (if false then 1 else 0) ∧ (demoArgs 3 1 0 0 0).a[1] = (if true then 1 else 0) := by
  decide

theorem witness_BlenReadsLength : demo.buf[0] = none ∧ demo.buf[15] = some [false] ∧ demo.Inv := by decide

/-- One witness for each of the three laws. -/
theorem witness_BufferCommandLaws :
    (demo.buf[3] = some [false, true, false, false] ∧ [false, true, false, false].length ≤ 2 ^ 31 ∧
        (demoArgs 3 1 0 0 0).a[0].toNat < 4 ∧ (demoArgs 3 1 0 0 0).a[1] = (if true then 1 else 0) ∧
        isNext (exec (.bset 3) (demoArgs 3 1 0 0 0)) = true) ∧
      ((demoArgs 1 0 0 0 0).a[0].toInt = (1 : Nat) ∧ demo.params.maxLen ≤ 2 ^ 31 ∧
        isNext (exec (.bnew 0) (demoArgs 1 0 0 0 0)) = true ∧
        (run (.bnew 0) (demoArgs 1 0 0 0 0)).status.err = .ok) ∧
      isNext (exec (.blen 3) demo) = true ∧ Instr.blen 3 ∈ [Instr.bnew 3, .bget 3, .bset 3, .blen 3] ∧
      (4 : BufIx) ≠ 3 := by decide

/-! ### Witnesses: LFSR units -/

/-- Widths 0 and 65; at width 4 the seeds 0 and 16, and tap 4; at widths 1 and 64 a configuration that completes. -/
theorem witness_LnewConfiguresUnit :
    ((demoArgs 1 1 0 0 0).a[2].toNat < 1 ∧ 64 < (demoArgs 1 1 65 0 0).a[2].toNat) ∧
      ((demoArgs 0 1 4 0 0).a[0] = 0 ∧ 2 ^ (demoArgs 16 1 4 0 0).a[2].toNat ≤ (demoArgs 16 1 4 0 0).a[0].toNat) ∧
      ((demoArgs 15 16 4 0 0).a[0] ≠ 0 ∧ (demoArgs 15 16 4 0 0).a[0].toNat < 2 ^ (demoArgs 15 16 4 0 0).a[2].toNat ∧
        ∃ k, (demoArgs 15 16 4 0 0).a[2].toNat ≤ k ∧ (demoArgs 15 16 4 0 0).a[1].getLsbD k = true) ∧
      (∀ k, (demoArgs 1 1 1 0 0).a[2].toNat ≤ k → (demoArgs 1 1 1 0 0).a[1].getLsbD k = false) ∧
      ∀ k, (demoArgs 1 0xFFFFFFFFFFFFFFFF 64 0 0).a[2].toNat ≤ k →
        (demoArgs 1 0xFFFFFFFFFFFFFFFF 64 0 0).a[1].getLsbD k = false := by
  refine ⟨by decide, by decide, ⟨by decide, by decide, 4, by decide, by decide⟩, ?_, ?_⟩
  · exact (badTaps_eq_false_iff _ _).1 (by decide)
  · exact (badTaps_eq_false_iff _ _).1 (by decide)

/-- An unconfigured and a configured unit, for LFB, LSHIFT and LRD. -/
theorem witness_LfbReturnsFeedback : demo.lfsr[1].cfg = false ∧ demo.lfsr[0].cfg = true := by decide
theorem witness_LshiftShiftsOnce : demo.lfsr[1].cfg = false ∧ demo.lfsr[0].cfg = true := by decide
theorem witness_LrdReadsUnit : demo.lfsr[1].cfg = false ∧ demo.lfsr[0].cfg = true := by decide

/-- `demo` with other units. -/
def demoUnits (x y : LfsrUnit) : State := { demo with lfsr := #v[x, y] }

theorem witness_ZeroStateIsLegalAndStays :
    (demoUnits ⟨true, 0, 0x9, 4⟩ LfsrUnit.reset).lfsr[0].cfg = true ∧
      (demoUnits ⟨true, 0, 0x9, 4⟩ LfsrUnit.reset).lfsr[0].state = 0 := by decide

theorem witness_LshiftOutputRecurrence :
    demo.lfsr[0].cfg = true ∧ LfsrUnit.Inv demo.lfsr[0] ∧ 3 < demo.lfsr[0].width := by decide

/-- Taps {0, 3} in units of width 4 and 10 with equal low bits, and a seed whose low 4 bits are 0. -/
theorem witness_LshiftOutputDependsOnLowBits :
    LfsrUnit.Inv ⟨true, 0x1, 0x9, 4⟩ ∧ LfsrUnit.Inv ⟨true, 0x11, 0x9, 10⟩ ∧ LfsrUnit.Inv ⟨true, 0x10, 0x9, 10⟩ ∧
      (∀ k, 4 ≤ k → (0x9 : Word).getLsbD k = false) ∧
      (∀ k, k < 4 → (0x1 : Word).getLsbD k = (0x11 : Word).getLsbD k) ∧
      ∀ k, k < 4 → (0x10 : Word).getLsbD k = false :=
  ⟨by decide, by decide, by decide, (badTaps_eq_false_iff _ _).1 (by decide), by decide, by decide⟩

theorem witness_LshiftOutputPeriod :
    demo.lfsr[0].cfg = true ∧ LfsrUnit.Inv demo.lfsr[0] ∧ 1 ≤ 4 ∧ demo.lfsr[0].taps.getLsbD (4 - 1) = true ∧
      ∀ k, 4 ≤ k → demo.lfsr[0].taps.getLsbD k = false :=
  ⟨by decide, by decide, by decide, by decide, (badTaps_eq_false_iff _ _).1 (by decide)⟩

/-! ### Witnesses: the Gold-code generator -/

/-- Every check of GOLD in its order, and none failing at `n = 1` and `n = GOLD_NMAX`. -/
theorem witness_GoldGeneratesCode :
    firstError (.gold 0) (demoArgs 0 1 1 1 1) = some .invalidWidth ∧
      firstError (.gold 0) (demoArgs 65 1 1 1 1) = some .invalidWidth ∧
      firstError (.gold 0) (demoArgs 17 1 1 1 1) = some .capacityExceeded ∧
      firstError (.gold 0) (demoArgs 3 0 8 1 1) = some .invalidSeed ∧
      firstError (.gold 0) (demoArgs 3 8 1 1 1) = some .invalidTap ∧
      firstError (.gold 0) (demoArgs 3 0 1 0 0) = some .emptyTaps ∧
      firstError (.gold 0) (demoArgs 3 1 1 0 0) = some .invalidSeed ∧
      firstError (.gold 0) (demoArgs 3 1 1 8 1) = some .invalidTap ∧
      firstError (.gold 0) (demoArgs 3 1 1 0 1) = some .emptyTaps ∧
      firstError (.gold 0) (demoArgs 1 1 1 1 1) = none ∧ firstError (.gold 0) (demoArgs 16 9 1 1 1) = none := by decide

theorem witness_GoldDependsOnArgumentsAlone :
    (demoArgs 3 5 1 6 1).a = ({ State.reset with a := #v[3, 5, 1, 6, 1] } : State).a ∧
      isNext (exec (.gold 1) (demoArgs 3 5 1 6 1)) = true ∧
      isNext (exec (.gold 9) { State.reset with a := #v[3, 5, 1, 6, 1] }) = true ∧
      (run (.gold 1) (demoArgs 3 5 1 6 1)).status.err = .ok ∧
      (run (.gold 9) { State.reset with a := #v[3, 5, 1, 6, 1] }).status.err = .ok := by decide

theorem witness_GoldEqualPairsGiveZeros :
    (demoArgs 3 5 1 5 1).a[1] = (demoArgs 3 5 1 5 1).a[3] ∧ (demoArgs 3 5 1 5 1).a[2] = (demoArgs 3 5 1 5 1).a[4] ∧
      isNext (exec (.gold 1) (demoArgs 3 5 1 5 1)) = true ∧
      (run (.gold 1) (demoArgs 3 5 1 5 1)).status.err = .ok := by decide

/-- Taps {0} in the first and then in the second LFSR, with seeds 1 and 7 of width 3 and `m = 1`; and the example of
the rule. -/
theorem witness_GoldIgnoresSeedBitsAboveTaps :
    ((∀ k, 1 ≤ k → (demoArgs 3 1 1 3 1).a[1].getLsbD k = false) ∧
        (∀ k, k < 1 → (7 : Word).getLsbD k = (demoArgs 3 1 1 3 1).a[2].getLsbD k) ∧
        (run (.gold 1) (demoArgs 3 1 1 3 1)).status.err = .ok ∧
        (run (.gold 1) (demoArgs 3 1 7 3 1)).status.err = .ok) ∧
      ((∀ k, 1 ≤ k → (demoArgs 3 3 1 1 1).a[3].getLsbD k = false) ∧
        (∀ k, k < 1 → (7 : Word).getLsbD k = (demoArgs 3 3 1 1 1).a[4].getLsbD k) ∧
        (run (.gold 1) (demoArgs 3 3 1 1 1)).status.err = .ok ∧
        (run (.gold 1) (demoArgs 3 3 1 1 7)).status.err = .ok) ∧
      10 ≤ demo.params.goldNMax ∧
      (demoArgs 10 0x9 1 0x10D 0b1010101010).a = #v[10, 0x9, 1, 0x10D, 0b1010101010] :=
  ⟨⟨(badTaps_eq_false_iff _ _).1 (by decide), by decide, by decide, by decide⟩,
    ⟨(badTaps_eq_false_iff _ _).1 (by decide), by decide, by decide, by decide⟩, by decide, by decide⟩

/-! ### Witnesses: the spreader -/

theorem witness_SpreadersXorCyclicCode :
    demo.buf[0] = none ∧ demo.buf[1] = some [true, false, true, false, false, false, false] ∧
      demo.buf[15] = some [false] ∧ 0 < [false].length := by decide

/-- In place, with SPENC and then SPDEC. -/
theorem witness_SpreadRoundTripRestoresData :
    demo.buf[1] = some [true, false, true, false, false, false, false] ∧ demo.buf[4] = some [true, false] ∧
      (1 : BufIx) ≠ 4 ∧ Instr.spenc 1 1 4 ∈ [Instr.spenc 1 1 4, .spdec 1 1 4] ∧
      Instr.spdec 1 1 4 ∈ [Instr.spenc 1 1 4, .spdec 1 1 4] := by decide

/-! ### Witnesses: the correlation engine -/

theorem witness_SigReadsAntipodalSample :
    demo.buf[0] = none ∧ demo.buf[4] = some [true, false] ∧ [true, false].length ≤ (demoArgs 2 0 0 0 0).a[0].toNat ∧
      (demoArgs 1 0 0 0 0).a[0].toNat < [true, false].length := by decide

/-- No sequence; different lengths; one length. CSUM has the same clauses. -/
theorem witness_NxcorrReturnsSumAndLength :
    demo.buf[0] = none ∧ demo.buf[1] = some [true, false, true, false, false, false, false] ∧
      demo.buf[2] = some [true, true, true, true, true, true, false] ∧ demo.buf[4] = some [true, false] ∧
      (7 : Nat) ≠ [true, false].length := by decide

theorem witness_CsumReturnsSum :
    demo.buf[0] = none ∧ demo.buf[1] = some [true, false, true, false, false, false, false] ∧
      demo.buf[2] = some [true, true, true, true, true, true, false] ∧ demo.buf[4] = some [true, false] ∧
      (7 : Nat) ≠ [true, false].length := by decide

theorem witness_PacorrWritesAutocorrelation : demo.buf[0] = none ∧ demo.buf[15] = some [false] := by decide

/-- A vector of one entry, as `PACORR b15` leaves it. -/
def demoOne : State := { demo with cv := { valid := true, len := 1, den := 1, val := [1] } }

theorem witness_MaxoffReturnsOffPeakMaximum :
    State.reset.cv.valid = false ∧ demo.cv.valid = true ∧ demoOne.Inv ∧ demoOne.cv.len = 1 := by decide

/-- The last entry and the first index past it; entry 0. -/
theorem witness_CvrdReadsEntry :
    State.reset.cv.valid = false ∧ demo.cv.valid = true ∧ demo.cv.len ≤ (demoArgs 7 0 0 0 0).a[0].toNat ∧
      (demoArgs 6 0 0 0 0).a[0].toNat < demo.cv.len ∧ demo.cv.val[(demoArgs 6 0 0 0 0).a[0].toNat]? = some (-1) ∧
      (demoArgs 0 0 0 0 0).Inv ∧ (demoArgs 0 0 0 0 0).a[0] = 0 := by decide

theorem witness_CorrelationSumForms : [true, false].length = [false, false].length := by decide

/-- Shifts 0, 1 and `L - 1`. -/
theorem witness_CorrelationLaws :
    [true, false].length = [false, false].length ∧ 1 ≤ [true, false, false].length ∧
      0 < [true, false, false].length ∧ (2 < [true, false, false].length ∧ 1 ≤ 2) := by decide

/-- For MAXOFF a vector of seven entries. -/
theorem witness_CorrelationResultsAreExact :
    demo.Inv ∧ demo.buf[1] = some [true, false, true, false, false, false, false] ∧
      demo.buf[2] = some [true, true, true, true, true, true, false] ∧
      isNext (exec (.nxcorr 1 2) demo) = true ∧ (run (.nxcorr 1 2) demo).status.err = .ok ∧
      isNext (exec .cvrd demo) = true ∧ (run .cvrd demo).status.err = .ok ∧
      isNext (exec .maxoff demo) = true ∧ (run .maxoff demo).status.err = .ok := by decide

/-- The clause of MAXOFF on a vector with no entry past the first. -/
theorem witness_CorrelationResultsAreExact_oneEntry :
    demoOne.Inv ∧ isNext (exec .maxoff demoOne) = true ∧ (run .maxoff demoOne).status.err = .ok ∧
      demoOne.cv.val.drop 1 = [] := by decide

/-! ### Witnesses: text and pseudo-instructions -/

theorem witness_TextFormsKeepBitOrder : 0 < ([0x41] : List Byte).length ∧ 7 < 8 := by decide

/-- Sequences of length 1 and of `MAXLEN`. -/
theorem witness_LoadbitsLeavesSequence :
    demo.params.wf = true ∧ ([true] : BitSeq) ≠ [] ∧ [true].length ≤ demo.params.maxLen ∧
      (List.replicate 65536 true).length ≤ demo.params.maxLen := by
  refine ⟨by decide, by decide, by decide, ?_⟩
  rw [List.length_replicate]
  decide

end Sys2Proof.Tests
end

/-! PROOF. What writes `STATUS` (10_state.md R26): the check lists of the statements name the same first error as the
commands' own conditions, and a step that is no write of `CMD` and no reset keeps `STATUS`. -/

namespace Sys2Proof.Machine

open Sys2Proof.Spec

/-! ### The first failing check of a list -/

/-- The code of the first check of a list that fails (60_exceptions.md R206). -/
def firstFailing (cs : List (Bool × ErrCode)) : Option ErrCode := (cs.find? fun c => c.1).map fun c => c.2

theorem firstError_eq_firstFailing (i : Instr) (s : State) : firstError i s = firstFailing (checks i s) := rfl

@[simp] theorem firstFailing_nil : firstFailing [] = none := rfl

@[simp] theorem firstFailing_cons (b : Bool) (e : ErrCode) (cs : List (Bool × ErrCode)) :
    firstFailing ((b, e) :: cs) = if b = true then some e else firstFailing cs := by
  cases b <;> rfl

@[simp] theorem firstFailing_append (cs ds : List (Bool × ErrCode)) :
    firstFailing (cs ++ ds) = (firstFailing cs).or (firstFailing ds) := by
  simp only [firstFailing, List.find?_append, Option.map_or]

/-! ### The checks of the statements in the model's terms -/

/-- The length a check reads is that of the sequence the buffer holds, 0 where there is none. -/
theorem lenOf_buf (s : State) (b : BufIx) : lenOf s.buf[b] = (s.seqAt b).length := by
  unfold lenOf State.seqAt
  cases s.buf[b] <;> rfl

/-- An illegal seed, as a comparison of numbers (30_encoding.md R85). -/
theorem badSeed_eq_decide (w : Nat) (seed : Word) : badSeed w seed = decide (seed = 0 ∨ 2 ^ w ≤ seed.toNat) := by
  rw [badSeed, Bool.decide_or]
  rfl

/-- The checks of one pair of GOLD name the error of the pair. -/
@[simp] theorem firstFailing_pairChecks (n : Nat) (taps seed : Word) :
    firstFailing (pairChecks n taps seed) = pairError n taps seed := by
  simp [pairChecks, pairError, badSeed_eq_decide, badTaps_eq_decide]

/-- The first failing check of a command is the error the model's command raises (60_exceptions.md R206). What `simp`
leaves to `rfl` is the two spellings of an argument register, `s.a[k]` and `s.arg k`. -/
theorem firstError_eq_errorOf (i : Instr) (s : State) : firstError i s = errorOf i s := by
  rw [firstError_eq_firstFailing]
  cases i with
  | bnew bd => simp [checks, errorOf]; rfl
  | bget ba | sig ba => simp [checks, errorOf, lenOf_buf, -Fin.getElem_fin]; rfl
  | bset bd => simp [checks, errorOf, lenOf_buf, -Fin.getElem_fin]; rfl
  | blen ba | pacorr ba => simp [checks, errorOf]
  | lnew u => simp [checks, errorOf, badSeed_eq_decide, badTaps_eq_decide]; rfl
  | lfb u | lshift u | lrd u => cases h : s.lfsr[u].cfg <;> simp [checks, errorOf, h, -Fin.getElem_fin]
  | gold bd => simp [checks, errorOf]; rfl
  | spenc bd ba bb | spdec bd ba bb => simp [checks, errorOf]
  | nxcorr ba bb | csum ba bb => simp [checks, errorOf, lenOf_buf, -Fin.getElem_fin]
  | maxoff => cases h : s.cv.valid <;> simp [checks, errorOf, h]
  | cvrd =>
    cases h : s.cv.valid
    · simp [checks, errorOf, h]
    · simp [checks, errorOf, h]; rfl

/-! ### What a command and a step do to `STATUS` -/

/-- A command none of whose checks fails writes OK and keeps the sticky bit (60_exceptions.md R201). -/
theorem exec_status_of_no_error {i : Instr} {s t : State} (h : exec i s = .next t) (he : errorOf i s = none) :
    t.status = { err := .ok, fault := s.status.fault } := by
  rw [exec_eq, he] at h
  rw [(complete_next_iff _ _).1 h, effect_status]

/-- A command with a failing check writes its code and the sticky bit (60_exceptions.md R202). -/
theorem exec_status_of_error {i : Instr} {s t : State} {e : ErrCode} (h : exec i s = .next t)
    (he : errorOf i s = some e) : t.status = { err := e, fault := true } := by
  rw [exec_of_error he] at h
  rw [(raiseError_next_iff _ _ _).1 h]

/-- A step that is no reset and no write of `CMD` keeps `STATUS` (10_state.md R26). -/
theorem step_status_eq_or_reset_or_cmd {s t : State} (h : step s = .next t) :
    t.status = s.status ∨ s.pending.head? = some .reset ∨
      ∃ v, s.pending.head? = some (.write 64 s.params.base v) := by
  rcases step_next h with ⟨-, rfl⟩ | ⟨x, rest, hp, hx⟩
  · exact .inl rfl
  rw [hp, List.head?_cons]
  rcases hx with ⟨_, _, -, -, rfl⟩ | ⟨_, _, _, -, -, rfl⟩ | ⟨_, _, -, rfl⟩ | ⟨v, _, rfl, -⟩ | ⟨v, _, rfl, -⟩ | ⟨rfl, -⟩
  · exact .inl rfl
  · exact .inl rfl
  · exact .inl rfl
  · exact .inr (.inr ⟨v, rfl⟩)
  · exact .inr (.inr ⟨v, rfl⟩)
  · exact .inr (.inl rfl)

/-- Settles O19: the check lists name the error the command raises, and the cases of a step leave `STATUS` to a write of
`CMD` and a reset. -/
theorem everyCommandWritesStatus : Obligations.EveryCommandWritesStatus := by
  unfold Obligations.EveryCommandWritesStatus
  refine ⟨fun i s t h => ?_, fun s t h hne => (step_status_eq_or_reset_or_cmd h).resolve_left hne⟩
  rw [firstError_eq_errorOf]
  exact ⟨exec_status_of_no_error h, fun _ => exec_status_of_error h⟩

end Sys2Proof.Machine

/-! PROOF. The register map (20_memory.md R52, R53): the sixteen entries of the statements' window are the registers of
the sixteen slots, and a 64-bit access at a slot's address performs that slot's read or write. -/

namespace Sys2Proof.Machine

open Sys2Proof.Spec

/-! ### The slots and the statements' window -/

/-- A code's place in the statements' list is its number (60_exceptions.md R200). -/
@[simp] theorem codes_idxOf (e : ErrCode) : codes.idxOf e = e.code := by
  cases e <;> rfl

/-- Every one of the sixteen offsets `8k` is a slot's (20_memory.md R52). -/
theorem exists_slotOffset_eq (k : Fin 16) : ∃ sl, slotOffset sl = 8 * k.val := by
  obtain ⟨sl, hsl⟩ := Option.isSome_iff_exists.1
    ((slotAt_isSome_iff (8 * k.val) (by omega)).2 (Nat.mul_mod_right 8 k.val))
  exact ⟨sl, slotOffset_of_slotAt hsl⟩

/-- The entry of the statements' window at a slot's offset is what a read of the slot returns. -/
theorem window_getElem_slot (s : State) (sl : Slot) :
    (window s)[slotOffset sl / 8]'(by have := slotOffset_lt sl; omega) = readSlot s sl := by
  cases sl with
  | cmd | cap => rfl
  | status => exact congrArg (fun n => BitVec.ofNat 64 (n + _)) (codes_idxOf s.status.err)
  | arg k | res k | reserved k => fin_cases k <;> rfl

theorem window_get_of_slotOffset {k : Fin 16} {sl : Slot} (s : State) (h : slotOffset sl = 8 * k.val) :
    (window s)[k] = readSlot s sl := by
  have hk : slotOffset sl / 8 = k.val := by omega
  simp only [← window_getElem_slot s sl, hk, Fin.getElem_fin]

/-! ### A step that accesses a slot -/

section step_slot

variable {s : State} {sl : Slot} {rest : List HostStep}

/-- A 64-bit read at a slot's address observes the slot and changes nothing else (20_memory.md R59). -/
theorem step_read_slot (h : s.pending = .read 64 (s.params.base + slotOffset sl) :: rest) :
    step s = .next { s with pending := rest, observed := s.observed ++ [readSlot s sl] } := by
  rw [step_cons h, hostStep]
  exact (access_slotAddr { s with pending := rest } sl _).trans (by cases sl <;> rfl)

/-- A 64-bit write at a slot's address writes the slot (20_memory.md R59). -/
theorem step_write_slot {v : Word} (h : s.pending = .write 64 (s.params.base + slotOffset sl) v :: rest) :
    step s = hostWrite sl v { s with pending := rest } := by
  rw [step_cons h]
  exact access_slotAddr { s with pending := rest } sl _

end step_slot

/-! ### What a write of a slot does -/

/-- A write of `CMD` with a command stores and executes it (10_state.md R24). -/
theorem runCommand_of_ok {v : Word} {i : Instr} (s : State) (h : decode v = .ok i) :
    runCommand v s = exec i { s with cmd := v } := by
  rw [runCommand, h]

/-- A write of `CMD` with an illegal value stores it and raises `IllegalCommand` (30_encoding.md R77). -/
theorem runCommand_of_not_ok {v : Word} (s : State) (h : ∀ i, decode v ≠ .ok i) :
    runCommand v s = .next (raised .illegalCommand { s with cmd := v }) := by
  cases hd : decode v with
  | ok i => exact absurd hd (h i)
  | error e => rw [runCommand, hd]; rfl

/-- A slot at the offset of `STATUS`, or past the argument registers, ignores a write (20_memory.md R52, R53). -/
theorem hostWrite_ignored {k : Fin 16} {sl : Slot} (v : Word) (s : State) (hsl : slotOffset sl = 8 * k.val)
    (hk : k = 1 ∨ 7 ≤ k.val) : hostWrite sl v s = .next s := by
  have hk : k.val = 1 ∨ 7 ≤ k.val := hk.imp_left (congrArg Fin.val)
  cases sl with
  | cmd | arg j => simp only [slotOffset] at hsl; omega
  | status | res j | cap | reserved j => rfl

/-- Settles O9: slot `k` is the slot at offset `8k`, and the step performs that slot's read or write. -/
theorem windowFollowsRegisterMap : Obligations.WindowFollowsRegisterMap := by
  unfold Obligations.WindowFollowsRegisterMap
  intro s k rest
  obtain ⟨sl, hsl⟩ := exists_slotOffset_eq k
  refine ⟨fun h => ?_, fun v h => ⟨?_, ?_, ?_, ?_⟩⟩
  · rw [← hsl] at h
    rw [step_read_slot h, window_get_of_slotOffset s hsl]
  · rintro rfl i hi
    rw [step_write_slot (sl := .cmd) h]
    exact runCommand_of_ok _ hi
  · rintro rfl hv
    rw [step_write_slot (sl := .cmd) h]
    exact runCommand_of_not_ok _ hv
  · intro j hj
    have hoff : 8 * k.val = slotOffset (.arg j) := by simp only [slotOffset]; omega
    rw [hoff] at h
    rw [step_write_slot h, hostWrite]
  · intro hk
    rw [← hsl] at h
    rw [step_write_slot h, hostWrite_ignored v _ hsl hk]

end Sys2Proof.Machine

/-! PROOF. The encoding's illegal values and assembled words (30_encoding.md R77, R78, R95): the statements' opcode map
and field bits are the decoder's rows and masks, so that a value is a command exactly when none of R77's cases holds. -/

namespace Sys2Proof

open Sys2Proof.Spec

/-! ### The statements' opcode map and the decoder's rows -/

theorem Op.mem_rows (op : Op) : op ∈ Op.rows := by cases op <;> decide

/-- The opcode map of the statements is the list of rows, in its order (30_encoding.md R75). -/
theorem opcodeMap_eq_rows : opcodeMap = Op.rows.map fun op => (op.opcode.toNat, op.format) := rfl

theorem mem_opcodeMap_iff (row : Nat × Format) : row ∈ opcodeMap ↔ ∃ op : Op, (op.opcode.toNat, op.format) = row := by
  simp [opcodeMap_eq_rows, Op.mem_rows]

theorem Op.opcode_injective : Function.Injective Op.opcode := fun op op' h => by
  simpa using congrArg rowOf h

/-- `OPC` as a number (30_encoding.md R71). -/
theorem opcField_toNat (v : Word) : (opcField v).toNat = v.toNat % 256 := by
  rw [opcField, BitVec.toNat_and]
  exact Nat.and_two_pow_sub_one_eq_mod v.toNat 8

theorem opcField_eq_opcode_iff (v : Word) (op : Op) : opcField v = op.opcode ↔ op.opcode.toNat = v.toNat % 256 := by
  rw [← opcField_toNat, BitVec.toNat_inj, eq_comm]

/-! ### The decoder's masks, bit by bit -/

/-- A word within a mask has no bit where the mask has none. -/
theorem and_not_eq_zero_iff (v m : Word) : v &&& ~~~m = 0 ↔ ∀ k, m.getLsbD k = false → v.getLsbD k = false := by
  constructor
  · intro h k hm
    rcases Nat.lt_or_ge k 64 with hk | hk
    · have hb := congrArg (fun x : Word => x.getLsbD k) h
      rw [BitVec.getLsbD_and, BitVec.getLsbD_not, hm] at hb
      simpa [hk] using hb
    · exact BitVec.getLsbD_of_ge _ _ hk
  · intro h
    apply BitVec.eq_of_getLsbD_eq
    intro k hk
    cases hm : m.getLsbD k
    · simp [h k hm]
    · simp [hm]

/-- The bits a format keeps are those of its fields (30_encoding.md R72, R76). -/
theorem Format.keep_getLsbD (f : Format) (k : Nat) : f.keep.getLsbD k = usedBits f k := by
  rcases Nat.lt_or_ge k 64 with hk | hk
  · revert k; cases f <;> decide
  · rw [BitVec.getLsbD_of_ge _ _ hk]
    cases f <;> simp [usedBits] <;> omega

theorem and_not_keep_eq_zero_iff (v : Word) (f : Format) :
    v &&& ~~~f.keep = 0 ↔ ∀ k, usedBits f k = false → v.getLsbD k = false := by
  simp only [and_not_eq_zero_iff, Format.keep_getLsbD]

theorem upperHalf_eq_zero_iff (v : Word) : v >>> 32 = 0 ↔ ∀ k, 32 ≤ k → v.getLsbD k = false := by
  rw [← Machine.toNat_lt_two_pow_iff, ← BitVec.toNat_inj, BitVec.toNat_ushiftRight, Nat.shiftRight_eq_div_pow]
  exact Nat.div_eq_zero_iff_lt (by decide)

/-! ### Illegal values -/

theorem exists_decode_ok_iff (v : Word) :
    (∃ i, decode v = .ok i) ↔ v >>> 32 = 0 ∧ ∃ op : Op, opcField v = op.opcode ∧ v &&& ~~~op.format.keep = 0 := by
  simp only [decode_ok_iff]
  constructor
  · rintro ⟨_, op, hup, hop, hkeep, -⟩
    exact ⟨hup, op, hop, hkeep⟩
  · rintro ⟨hup, op, hop, hkeep⟩
    exact ⟨_, op, hup, hop, hkeep, rfl⟩

/-- A value in none of the three cases of 30_encoding.md R77 passes the decoder's three checks, and the other way
round. A row of the third case is the row the value's `OPC` selects, since no two rows share an opcode. -/
theorem not_illegal_iff (v : Word) :
    ¬ Illegal v ↔ v >>> 32 = 0 ∧ ∃ op : Op, opcField v = op.opcode ∧ v &&& ~~~op.format.keep = 0 := by
  constructor
  · intro h
    have hup : ∀ k, 32 ≤ k → v.getLsbD k = false := fun k hk =>
      Bool.eq_false_of_not_eq_true fun hv => h (.inl ⟨k, hk, hv⟩)
    have hrow : ∃ row ∈ opcodeMap, row.1 = v.toNat % 256 := by
      by_contra hno
      exact h (.inr (.inl fun row hr ho => hno ⟨row, hr, ho⟩))
    obtain ⟨row, hr, ho⟩ := hrow
    obtain ⟨op, rfl⟩ := (mem_opcodeMap_iff row).1 hr
    refine ⟨(upperHalf_eq_zero_iff v).2 hup, op, (opcField_eq_opcode_iff v op).2 ho,
      (and_not_keep_eq_zero_iff v _).2 fun k hu => ?_⟩
    rcases Nat.lt_or_ge k 32 with hk | hk
    · exact Bool.eq_false_of_not_eq_true fun hv => h (.inr (.inr ⟨_, hr, ho, k, hk, hu, hv⟩))
    · exact hup k hk
  · rintro ⟨hup, op, hop, hkeep⟩ (⟨k, hk, hv⟩ | hno | ⟨row, hr, ho, k, -, hu, hv⟩)
    · simp [(upperHalf_eq_zero_iff v).1 hup k hk] at hv
    · exact hno _ ((mem_opcodeMap_iff _).2 ⟨op, rfl⟩) ((opcField_eq_opcode_iff v op).1 hop)
    · obtain ⟨op', rfl⟩ := (mem_opcodeMap_iff row).1 hr
      obtain rfl : op = op' := Op.opcode_injective (hop.symm.trans ((opcField_eq_opcode_iff v op').2 ho))
      simp [(and_not_keep_eq_zero_iff v _).1 hkeep k hu] at hv

/-- A value is a command exactly when it is not illegal (30_encoding.md R78). -/
theorem exists_decode_ok_iff_not_illegal (v : Word) : (∃ i, decode v = .ok i) ↔ ¬ Illegal v :=
  (exists_decode_ok_iff v).trans (not_illegal_iff v).symm

/-- Settles O5: an illegal value decodes to no command, so the write of `CMD` stores it and raises. -/
theorem illegalValuesRaiseIllegalCommand : Obligations.IllegalValuesRaiseIllegalCommand := by
  unfold Obligations.IllegalValuesRaiseIllegalCommand
  refine ⟨fun s v rest hp hv => ?_, exists_decode_ok_iff_not_illegal⟩
  rw [Machine.step_write_slot (sl := .cmd) hp]
  exact Machine.runCommand_of_not_ok _ fun i hi => (exists_decode_ok_iff_not_illegal v).1 ⟨i, hi⟩ hv

/-! ### The assembled words -/

/-- Settles O4: the rows of R95 are nineteen closed facts, each evaluated. -/
theorem assembledWordsDecode : Obligations.AssembledWordsDecode := by
  unfold Obligations.AssembledWordsDecode
  decide

end Sys2Proof

/-! PROOF. The text forms (30_encoding.md R86, R87): a rendered sequence parses back, and the bits of a text are those of
its bytes, eight a byte. -/

namespace Sys2Proof.Machine

/-! ### The text form of a sequence -/

@[simp] theorem charBit_bitChar (b : Bool) : charBit (bitChar b) = some b := by cases b <;> rfl

theorem mapM_charBit_map_bitChar (x : BitSeq) : (x.map bitChar).mapM charBit = some x := by
  induction x with
  | nil => rfl
  | cons b bs ih => simp [ih]

@[simp] theorem renderBits_toList (x : BitSeq) : (renderBits x).toList = x.map bitChar := String.toList_ofList

@[simp] theorem parseBits_renderBits (x : BitSeq) : parseBits (renderBits x) = some x := by
  rw [parseBits, renderBits_toList, mapM_charBit_map_bitChar]

/-! ### The bits of a text -/

@[simp] theorem byteBits_length (c : Byte) : (byteBits c).length = 8 := by
  rw [byteBits, List.length_map, List.length_range]

theorem byteBits_getElem? (c : Byte) {k : Nat} (hk : k < 8) : (byteBits c)[k]? = some (c.getLsbD (7 - k)) := by
  simp [byteBits, hk]

theorem textBits_cons (c : Byte) (t : List Byte) : textBits (c :: t) = byteBits c ++ textBits t := rfl

@[simp] theorem textBits_length (t : List Byte) : (textBits t).length = 8 * t.length := by
  simp [textBits, Nat.mul_comm]

/-- Byte `j` of a text gives positions `8j` to `8j+7`, most significant bit first (30_encoding.md R87). -/
theorem textBits_getElem? (t : List Byte) {j k : Nat} (hj : j < t.length) (hk : k < 8) :
    (textBits t)[8 * j + k]? = some (t[j].getLsbD (7 - k)) := by
  induction t generalizing j with
  | nil => cases hj
  | cons c t ih =>
    rw [textBits_cons]
    cases j with
    | zero =>
      rw [Nat.mul_zero, Nat.zero_add, List.getElem?_append_left (by rwa [byteBits_length]), byteBits_getElem? c hk]
      rfl
    | succ j =>
      have hpos : 8 * (j + 1) + k - 8 = 8 * j + k := by omega
      rw [List.getElem?_append_right (by rw [byteBits_length]; omega), byteBits_length, hpos]
      exact ih (Nat.lt_of_succ_lt_succ hj)

/-- Settles O58: parsing undoes rendering character by character, and a text's bits are found byte by byte. -/
theorem textFormsKeepBitOrder : Obligations.TextFormsKeepBitOrder := by
  unfold Obligations.TextFormsKeepBitOrder
  exact ⟨fun x => ⟨renderBits_toList x, parseBits_renderBits x⟩,
    fun t j k hj hk => ⟨textBits_length t, textBits_getElem? t hj hk⟩⟩

end Sys2Proof.Machine

/-! PROOF. The bit-sequence buffer commands (40_bitsequence.md R100 to R104): what BNEW, BGET, BSET and BLEN answer,
one lemma per outcome, and the laws that follow from them. -/

namespace Sys2Proof.Machine

open Sys2Proof.Spec

/-! ### The two ends of a command in the statements' terms -/

theorem exec_eq_raised {i : Instr} {s : State} {e : ErrCode} (h : errorOf i s = some e) :
    exec i s = .next (raised e s) :=
  exec_of_error h

theorem exec_eq_completed {i : Instr} {s : State} (h : Completes i s) : exec i s = .next (completed (effect i s)) :=
  exec_of_completes h

/-- A command that leaves `ERR` at OK has met its condition: no error it raises has the code OK. -/
theorem completes_of_next_ok {i : Instr} {s t : State} (h : exec i s = .next t) (hok : t.status.err = .ok) :
    Completes i s := by
  rcases exec_next h with ⟨e, hne, -, rfl⟩ | ⟨-, hc, -⟩
  · exact absurd hok hne
  · exact hc

/-! ### Arguments, bits and lengths -/

theorem State.arg_zero (s : State) : s.arg 0 = s.a[0] := rfl

theorem State.arg_one (s : State) : s.arg 1 = s.a[1] := rfl

theorem bitAt_of_lt {x : BitSeq} {i : Nat} (h : i < x.length) : bitAt x i = x[i] := List.getD_eq_getElem x false h

theorem bitWord_eq_ite (b : Bool) : bitWord b = if b then 1 else 0 := by cases b <;> rfl

/-- The lowest bit of a word that holds one bit is that bit. -/
theorem getLsbD_zero_of_eq_ite {w : Word} {v : Bool} (h : w = if v then 1 else 0) : w.getLsbD 0 = v := by
  subst h
  cases v <;> rfl

theorem toNat_le_one_of_eq_ite {w : Word} {v : Bool} (h : w = if v then 1 else 0) : w.toNat ≤ 1 := by
  subst h
  cases v <;> decide

/-- Legal parameters keep `MAXLEN` within `2^31` (00_scope.md R7). -/
theorem Params.maxLen_le_of_wf {p : Params} (h : p.wf = true) : p.maxLen ≤ 2 ^ 31 := by
  simp only [Params.wf, Bool.and_eq_true, decide_eq_true_eq] at h
  exact h.2

/-- A position or length within `2^31` is read back from its register unchanged. -/
theorem toNat_ofNat_of_le {n : Nat} (h : n ≤ 2 ^ 31) : (BitVec.ofNat 64 n).toNat = n := by
  rw [BitVec.toNat_ofNat]
  omega

section outcomes

variable {s : State} {b : BufIx} {bits : BitSeq}

/-! ### BNEW -/

theorem errorOf_bnew_of_nonpos (h : s.a[0].toInt ≤ 0) : errorOf (.bnew b) s = some .invalidLength := if_pos h

theorem errorOf_bnew_of_gt (h : (s.params.maxLen : Int) < s.a[0].toInt) :
    errorOf (.bnew b) s = some .capacityExceeded := by
  have hpos : ¬ s.a[0].toInt ≤ 0 := by omega
  exact (if_neg hpos).trans (if_pos h)

theorem exec_bnew_of_legal {n : Nat} (ha : s.a[0].toInt = n) (h0 : 0 < n) (hn : n ≤ s.params.maxLen) :
    exec (.bnew b) s = .next { completed s with buf := s.buf.set b (some (List.replicate n false)) } := by
  have hc : Completes (.bnew b) s := by
    simp only [Completes, sint64, State.arg_zero, ha]
    omega
  rw [exec_eq_completed hc, effect, sint64, State.arg_zero, ha]
  rfl

/-! ### BGET -/

theorem errorOf_bget_of_none (hb : s.buf[b] = none) : errorOf (.bget b) s = some .notAllocated := if_pos hb

theorem errorOf_bget_of_le (hb : s.buf[b] = some bits) (h : bits.length ≤ s.a[0].toNat) :
    errorOf (.bget b) s = some .indexOutOfRange := by
  rw [errorOf, State.seqAt_of_some hb, State.arg_zero, hb, if_neg nofun, if_pos h]

theorem exec_bget_of_lt (hb : s.buf[b] = some bits) (h : s.a[0].toNat < bits.length) :
    exec (.bget b) s =
      .next { completed s with r := s.r.set 0 (if bits[s.a[0].toNat] then 1 else 0) } := by
  have hc : Completes (.bget b) s := ⟨⟨bits, hb⟩, by rwa [State.seqAt_of_some hb]⟩
  rw [exec_eq_completed hc, effect, State.seqAt_of_some hb, State.arg_zero, bitAt_of_lt h, bitWord_eq_ite]
  rfl

/-! ### BSET -/

theorem errorOf_bset_of_none (hb : s.buf[b] = none) : errorOf (.bset b) s = some .notAllocated := if_pos hb

theorem errorOf_bset_of_le (hb : s.buf[b] = some bits) (h : bits.length ≤ s.a[0].toNat) :
    errorOf (.bset b) s = some .indexOutOfRange := by
  rw [errorOf, State.seqAt_of_some hb, State.arg_zero, hb, if_neg nofun, if_pos h]

theorem errorOf_bset_of_not_bit (hb : s.buf[b] = some bits) (h : s.a[0].toNat < bits.length)
    (hv : 1 < s.a[1].toNat) : errorOf (.bset b) s = some .invalidBit := by
  rw [errorOf, State.seqAt_of_some hb, State.arg_zero, State.arg_one, hb, if_neg nofun, if_neg (Nat.not_le.2 h),
    if_pos hv]

theorem exec_bset_of_lt {v : Bool} (hb : s.buf[b] = some bits) (h : s.a[0].toNat < bits.length)
    (hv : s.a[1] = if v then 1 else 0) :
    exec (.bset b) s = .next { completed s with buf := s.buf.set b (some (bits.set s.a[0].toNat v)) } := by
  have hc : Completes (.bset b) s :=
    ⟨⟨bits, hb⟩, by rwa [State.seqAt_of_some hb], toNat_le_one_of_eq_ite hv⟩
  rw [exec_eq_completed hc, effect, State.seqAt_of_some hb, State.arg_zero, State.arg_one, getLsbD_zero_of_eq_ite hv]
  rfl

/-! ### BLEN -/

theorem errorOf_blen_of_none (hb : s.buf[b] = none) : errorOf (.blen b) s = some .notAllocated := if_pos hb

theorem exec_blen_of_some (hb : s.buf[b] = some bits) :
    exec (.blen b) s = .next { completed s with r := s.r.set 0 (BitVec.ofNat 64 bits.length) } := by
  rw [exec_eq_completed (i := .blen b) ⟨bits, hb⟩, effect, State.seqAt_of_some hb]
  rfl

/-! ### A bit read after the host has written its position -/

/-- BGET with the host's `A0` at a position of the sequence returns the bit there (40_bitsequence.md R101). -/
theorem exec_bget_at {j : Nat} (hb : s.buf[b] = some bits) (hlen : bits.length ≤ 2 ^ 31) (hj : j < bits.length) :
    ∃ y, exec (.bget b) { s with a := s.a.set 0 (BitVec.ofNat 64 j) } = .next y ∧ y.status.err = .ok ∧
      y.r[0] = if bits[j] then 1 else 0 := by
  have hpos : (BitVec.ofNat 64 j).toNat = j := toNat_ofNat_of_le (by omega)
  have ha : (s.a.set 0 (BitVec.ofNat 64 j))[0].toNat = j := by rw [Vector.getElem_set_self, hpos]
  refine ⟨_, exec_bget_of_lt (s := { s with a := s.a.set 0 (BitVec.ofNat 64 j) }) hb (by rwa [ha]), rfl, ?_⟩
  simp only [Vector.getElem_set_self, hpos]

end outcomes

/-! ### What a buffer command keeps -/

/-- No buffer command writes a unit or the correlation vector, and only BNEW and BSET write a buffer, their own. -/
theorem effect_buffer_command {s : State} {b c : BufIx} {i : Instr}
    (hi : i ∈ [Instr.bnew b, .bget b, .bset b, .blen b]) :
    (effect i s).lfsr = s.lfsr ∧ (effect i s).cv = s.cv ∧
      (c ≠ b ∨ i = .bget b ∨ i = .blen b → (effect i s).buf[c] = s.buf[c]) := by
  simp only [List.mem_cons, List.not_mem_nil, or_false] at hi
  rcases hi with rfl | rfl | rfl | rfl
  · exact ⟨rfl, rfl, fun hc => vector_get_set_ne _ _ (Ne.symm (by simpa using hc))⟩
  · exact ⟨rfl, rfl, fun _ => rfl⟩
  · exact ⟨rfl, rfl, fun hc => vector_get_set_ne _ _ (Ne.symm (by simpa using hc))⟩
  · exact ⟨rfl, rfl, fun _ => rfl⟩

theorem exec_buffer_command_frame {s t : State} {b c : BufIx} {i : Instr}
    (hi : i ∈ [Instr.bnew b, .bget b, .bset b, .blen b]) (h : exec i s = .next t) :
    t.lfsr = s.lfsr ∧ t.cv = s.cv ∧ (c ≠ b ∨ i = .bget b ∨ i = .blen b → t.buf[c] = s.buf[c]) := by
  rcases exec_next h with ⟨e, -, -, rfl⟩ | ⟨-, -, rfl⟩
  · exact ⟨rfl, rfl, fun _ => rfl⟩
  · exact effect_buffer_command hi

/-! ### Reads after a write -/

/-- After BSET the sequence read by BGET is the old one with its one bit set (40_bitsequence.md R104). -/
theorem exec_bget_after_bset {s t : State} {b : BufIx} {bits : BitSeq} {v : Bool} (hb : s.buf[b] = some bits)
    (hlen : bits.length ≤ 2 ^ 31) (h0 : s.a[0].toNat < bits.length) (hv : s.a[1] = if v then 1 else 0)
    (h : exec (.bset b) s = .next t) {j : Nat} (hj : j < bits.length) :
    ∃ x y, exec (.bget b) { s with a := s.a.set 0 (BitVec.ofNat 64 j) } = .next x ∧
      exec (.bget b) { t with a := t.a.set 0 (BitVec.ofNat 64 j) } = .next y ∧
      y.r[0] = if j = s.a[0].toNat then s.a[1] else x.r[0] := by
  rw [exec_bset_of_lt hb h0 hv] at h
  obtain rfl := Host.Outcome.next.inj h
  obtain ⟨x, hx, -, hxr⟩ := exec_bget_at hb hlen hj
  obtain ⟨y, hy, -, hyr⟩ := exec_bget_at
    (s := { completed s with buf := s.buf.set b (some (bits.set s.a[0].toNat v)) }) (b := b) (j := j)
    (vector_get_set_self _ _ _) (by rwa [List.length_set]) (by rwa [List.length_set])
  refine ⟨x, y, hx, hy, ?_⟩
  rw [hyr, hxr, List.getElem_set, hv]
  by_cases hji : j = s.a[0].toNat
  · rw [if_pos hji, if_pos hji.symm]
  · rw [if_neg hji, if_neg (Ne.symm hji)]

/-- After BNEW, BLEN returns the length and BGET returns 0 at every position (40_bitsequence.md R104). -/
theorem exec_reads_after_bnew {s t : State} {b : BufIx} {n : Nat} (ha : s.a[0].toInt = n)
    (hmax : s.params.maxLen ≤ 2 ^ 31) (h : exec (.bnew b) s = .next t) (hok : t.status.err = .ok) :
    (∃ x, exec (.blen b) t = .next x ∧ x.r[0] = BitVec.ofNat 64 n) ∧
      ∀ j : Nat, j < n → ∃ y, exec (.bget b) { t with a := t.a.set 0 (BitVec.ofNat 64 j) } = .next y ∧
        y.status.err = .ok ∧ y.r[0] = 0 := by
  obtain ⟨hpos, hle⟩ : 0 < s.a[0].toInt ∧ s.a[0].toInt ≤ s.params.maxLen := completes_of_next_ok h hok
  rw [ha] at hpos hle
  rw [exec_bnew_of_legal ha (by omega) (by omega)] at h
  obtain rfl := Host.Outcome.next.inj h
  have hb := vector_get_set_self s.buf b (some (List.replicate n false))
  refine ⟨⟨_, exec_blen_of_some hb, ?_⟩, fun j hj => ?_⟩
  · rw [Vector.getElem_set_self, List.length_replicate]
  · obtain ⟨y, hy, hyok, hyr⟩ := exec_bget_at
      (s := { completed s with buf := s.buf.set b (some (List.replicate n false)) }) (j := j) hb
      (by rw [List.length_replicate]; omega) (by rwa [List.length_replicate])
    exact ⟨y, hy, hyok, by rw [hyr, List.getElem_replicate, if_neg Bool.false_ne_true]⟩

/-! ### The statements -/

/-- Settles O29: the outcome of BNEW in each range of the signed `A0`. -/
theorem bnewAllocatesZeros : Obligations.BnewAllocatesZeros := by
  unfold Obligations.BnewAllocatesZeros
  intro bd s
  refine ⟨?_, fun h => exec_eq_raised (errorOf_bnew_of_nonpos h), fun h => exec_eq_raised (errorOf_bnew_of_gt h),
    fun n => exec_bnew_of_legal⟩
  revert bd
  decide

/-- Settles O30: the outcome of BGET without a sequence, past its end, and at a position of it. -/
theorem bgetReadsOneBit : Obligations.BgetReadsOneBit := by
  unfold Obligations.BgetReadsOneBit
  intro ba s
  refine ⟨?_, fun hb => exec_eq_raised (errorOf_bget_of_none hb), fun bits hb =>
    ⟨fun h => exec_eq_raised (errorOf_bget_of_le hb h), exec_bget_of_lt hb⟩⟩
  revert ba
  decide

/-- Settles O31: the outcome of BSET at each failing check, and of a bit written at a position of the sequence. -/
theorem bsetWritesOneBit : Obligations.BsetWritesOneBit := by
  unfold Obligations.BsetWritesOneBit
  intro bd s
  refine ⟨?_, fun hb => exec_eq_raised (errorOf_bset_of_none hb), fun bits hb =>
    ⟨fun h => exec_eq_raised (errorOf_bset_of_le hb h), fun h =>
      ⟨fun hv => exec_eq_raised (errorOf_bset_of_not_bit hb h hv), fun v => exec_bset_of_lt hb h⟩⟩⟩
  revert bd
  decide

/-- Settles O32: the outcome of BLEN, and the invariant's bounds on a length, which its register holds unchanged. -/
theorem blenReadsLength : Obligations.BlenReadsLength := by
  unfold Obligations.BlenReadsLength
  intro ba s
  refine ⟨?_, fun hb => exec_eq_raised (errorOf_blen_of_none hb), fun bits hb =>
    ⟨exec_blen_of_some hb, fun hinv => ?_⟩⟩
  · revert ba
    decide
  · obtain ⟨hwf, hbuf, -⟩ := hinv
    obtain ⟨hpos, hle⟩ := hbuf ba bits hb
    rw [toNat_ofNat_of_le (hle.trans (Params.maxLen_le_of_wf hwf))]
    exact ⟨hpos, hle⟩

/-- Settles O33: the bits read after BSET and BNEW are those of the sequence written, and the effect of a buffer command
reaches no other store. -/
theorem bufferCommandLaws : Obligations.BufferCommandLaws := by
  unfold Obligations.BufferCommandLaws
  exact ⟨fun _ _ _ _ _ hb hlen h0 hv h _ => exec_bget_after_bset hb hlen h0 hv h,
    fun _ _ _ _ => exec_reads_after_bnew, fun _ _ _ _ _ => exec_buffer_command_frame⟩

end Sys2Proof.Machine

/-! PROOF. The LFSR unit commands (41_lfsr.md R120 to R126): the model's feedback and shift in the terms of the
statements, what LNEW, LFB, LSHIFT and LRD answer, and the unit after any number of shifts. -/

namespace Sys2Proof.Machine

open Sys2Proof.Spec

/-! ### Feedback and shift -/

theorem feedback_eq_xorTaps (st taps : Word) : feedback st taps = xorTaps st taps := by
  simp only [feedback_eq_foldl, xorTaps, Bool.and_comm]

theorem xorTaps_zero (taps : Word) : xorTaps 0 taps = false := by
  rw [← feedback_eq_xorTaps, feedback_zero]

/-- One bit of the next state: the feedback bit enters at bit 0 and the others move up (41_lfsr.md R121). -/
theorem nextState_getLsbD (st taps : Word) (w k : Nat) :
    (nextState st taps w).getLsbD k =
      (decide (k < 64) && decide (k < w) && if k = 0 then xorTaps st taps else st.getLsbD (k - 1)) := by
  rw [nextState, BitVec.getLsbD_ofNat, Nat.testBit_mod_two_pow, ← Nat.bit_val, ← Bool.and_assoc]
  cases k with
  | zero => rw [Nat.testBit_bit_zero, if_pos rfl]
  | succ k => rw [Nat.testBit_bit_succ, if_neg (Nat.succ_ne_zero k)]; rfl

/-- The model's shift of the bits is the statements' shift of the number (41_lfsr.md R121). -/
theorem shift_fst_eq_nextState (st taps : Word) (w : Nat) : (shift st taps w).1 = nextState st taps w :=
  BitVec.eq_of_getLsbD_eq fun k _ => by rw [shift_fst_getLsbD, nextState_getLsbD, feedback_eq_xorTaps]

theorem nextState_zero (taps : Word) (w : Nat) : nextState 0 taps w = 0 := by
  rw [nextState, xorTaps_zero]
  exact congrArg (BitVec.ofNat 64) (Nat.zero_mod _)

/-- A zero state stays zero however often it is shifted (41_lfsr.md R125). -/
theorem stateAt_zero_seed (taps : Word) (w j : Nat) : stateAt 0 taps w j = 0 := by
  induction j with
  | zero => rfl
  | succ j ih => rw [stateAt, ih, nextState_zero]

section outcomes

variable {s : State} {u : UnitIx}

/-! ### LNEW -/

theorem errorOf_lnew_of_width (hw : s.a[2].toNat < 1 ∨ 64 < s.a[2].toNat) :
    errorOf (.lnew u) s = some .invalidWidth := if_pos hw

theorem errorOf_lnew_of_legal_width (h1 : 1 ≤ s.a[2].toNat) (h64 : s.a[2].toNat ≤ 64) :
    errorOf (.lnew u) s =
      if badSeed s.a[2].toNat s.a[0] = true then some .invalidSeed
      else if badTaps s.a[2].toNat s.a[1] = true then some .invalidTap else none := by
  have hw : ¬ (s.a[2].toNat < 1 ∨ 64 < s.a[2].toNat) := by omega
  exact if_neg hw

theorem errorOf_lnew_of_seed (h1 : 1 ≤ s.a[2].toNat) (h64 : s.a[2].toNat ≤ 64)
    (hseed : s.a[0] = 0 ∨ 2 ^ s.a[2].toNat ≤ s.a[0].toNat) : errorOf (.lnew u) s = some .invalidSeed := by
  rw [errorOf_lnew_of_legal_width h1 h64, badSeed_eq_decide, if_pos (decide_eq_true hseed)]

theorem errorOf_lnew_of_tap (h1 : 1 ≤ s.a[2].toNat) (h64 : s.a[2].toNat ≤ 64) (h0 : s.a[0] ≠ 0)
    (hlt : s.a[0].toNat < 2 ^ s.a[2].toNat) (htap : ∃ k, s.a[2].toNat ≤ k ∧ s.a[1].getLsbD k = true) :
    errorOf (.lnew u) s = some .invalidTap := by
  have hseed : badSeed s.a[2].toNat s.a[0] = false := (badSeed_eq_false_iff _ _).2 ⟨h0, hlt⟩
  have hbad : badTaps s.a[2].toNat s.a[1] = true := by
    obtain ⟨k, hk, hbit⟩ := htap
    refine Bool.eq_true_of_not_eq_false fun hf => ?_
    rw [(badTaps_eq_false_iff _ _).1 hf k hk] at hbit
    cases hbit
  rw [errorOf_lnew_of_legal_width h1 h64, hseed, if_neg Bool.false_ne_true, if_pos hbad]

theorem exec_lnew_of_legal (h1 : 1 ≤ s.a[2].toNat) (h64 : s.a[2].toNat ≤ 64) (h0 : s.a[0] ≠ 0)
    (hlt : s.a[0].toNat < 2 ^ s.a[2].toNat) (htaps : ∀ k, s.a[2].toNat ≤ k → s.a[1].getLsbD k = false) :
    exec (.lnew u) s = .next { completed s with
      lfsr := s.lfsr.set u { cfg := true, state := s.a[0], taps := s.a[1], width := s.a[2].toNat } } :=
  exec_eq_completed (i := .lnew u)
    ⟨h1, h64, (badSeed_eq_false_iff _ _).2 ⟨h0, hlt⟩, (badTaps_eq_false_iff _ _).2 htaps⟩

/-! ### LFB, LSHIFT and LRD -/

/-- A command that uses a unit raises NotConfigured on an unconfigured one (10_state.md R33). -/
theorem exec_unit_command_of_not_cfg {i : Instr} (hi : i ∈ [Instr.lfb u, .lshift u, .lrd u])
    (hc : s.lfsr[u].cfg = false) : exec i s = .next (raised .notConfigured s) := by
  have hne : ¬ s.lfsr[u].cfg = true := by rw [hc]; exact Bool.false_ne_true
  simp only [List.mem_cons, List.not_mem_nil, or_false] at hi
  apply exec_eq_raised
  rcases hi with rfl | rfl | rfl <;> exact if_neg hne

theorem exec_lfb_of_cfg (hc : s.lfsr[u].cfg = true) :
    exec (.lfb u) s =
      .next { completed s with r := s.r.set 0 (if xorTaps s.lfsr[u].state s.lfsr[u].taps then 1 else 0) } := by
  rw [exec_eq_completed (i := .lfb u) hc, effect, feedback_eq_xorTaps, bitWord_eq_ite]
  rfl

theorem exec_lshift_of_cfg (hc : s.lfsr[u].cfg = true) :
    exec (.lshift u) s = .next { completed s with
      lfsr := s.lfsr.set u { cfg := true, state := nextState s.lfsr[u].state s.lfsr[u].taps s.lfsr[u].width,
                             taps := s.lfsr[u].taps, width := s.lfsr[u].width },
      r := s.r.set 0 (if xorTaps s.lfsr[u].state s.lfsr[u].taps then 1 else 0) } := by
  rw [exec_eq_completed (i := .lshift u) hc, effect, shift_fst_eq_nextState, feedback_eq_xorTaps, bitWord_eq_ite]
  simp only [hc]
  rfl

/-- Writing the three result registers in turn leaves exactly the three words. -/
theorem vector_set_all_three {α : Type} (v : Vector α 3) (x y z : α) :
    ((v.set 0 x).set 1 y).set 2 z = #v[x, y, z] := by
  ext k hk
  interval_cases k <;> simp

theorem exec_lrd_of_cfg (hc : s.lfsr[u].cfg = true) :
    exec (.lrd u) s = .next { completed s with
      r := #v[s.lfsr[u].state, s.lfsr[u].taps, BitVec.ofNat 64 s.lfsr[u].width] } := by
  rw [exec_eq_completed (i := .lrd u) hc, effect, ← vector_set_all_three s.r]
  rfl

/-! ### A unit shifted any number of times -/

theorem afterTimes_succ_of_exec {i : Instr} {t : Nat} {s' : State} (h : exec i (afterTimes i t s) = .next s') :
    afterTimes i (t + 1) s = s' := by
  rw [afterTimes, h]

/-- After `t` shifts only the unit's state has changed, to the `t`-th one of its sequence (41_lfsr.md R124). -/
theorem afterTimes_lshift_unit (hc : s.lfsr[u].cfg = true) (t : Nat) :
    (afterTimes (.lshift u) t s).lfsr[u] =
      { cfg := true, state := stateAt s.lfsr[u].state s.lfsr[u].taps s.lfsr[u].width t,
        taps := s.lfsr[u].taps, width := s.lfsr[u].width } := by
  induction t with
  | zero => rw [afterTimes, stateAt, ← hc]
  | succ t ih =>
    have hct : (afterTimes (.lshift u) t s).lfsr[u].cfg = true := by rw [ih]
    rw [afterTimes_succ_of_exec (exec_lshift_of_cfg hct), vector_get_set_self, ih, stateAt]

/-- The bit returned by the `t`-th shift is the feedback of the `t`-th state (41_lfsr.md R124). -/
theorem outputBit_eq_xorTaps (hc : s.lfsr[u].cfg = true) (t : Nat) :
    outputBit u s t =
      xorTaps (stateAt s.lfsr[u].state s.lfsr[u].taps s.lfsr[u].width t) s.lfsr[u].taps := by
  have hu := afterTimes_lshift_unit hc t
  have hct : (afterTimes (.lshift u) t s).lfsr[u].cfg = true := by rw [hu]
  rw [outputBit, afterTimes_succ_of_exec (exec_lshift_of_cfg hct), hu]
  exact getLsbD_zero_of_eq_ite (Vector.getElem_set_self _)

/-- Every shift of a configured unit ends with OK (41_lfsr.md R125). -/
theorem afterTimes_lshift_err (hc : s.lfsr[u].cfg = true) (t : Nat) :
    (afterTimes (.lshift u) (t + 1) s).status.err = .ok := by
  have hct : (afterTimes (.lshift u) t s).lfsr[u].cfg = true := by rw [afterTimes_lshift_unit hc t]
  rw [afterTimes_succ_of_exec (exec_lshift_of_cfg hct)]
  rfl

/-- A configured unit whose state is 0 is left as it is by every shift, which returns 0 (41_lfsr.md R125). -/
theorem lshift_of_zero_state (hc : s.lfsr[u].cfg = true) (h0 : s.lfsr[u].state = 0) (t : Nat) :
    (afterTimes (.lshift u) t s).lfsr[u] = s.lfsr[u] ∧ outputBit u s t = false := by
  constructor
  · rw [afterTimes_lshift_unit hc, h0, stateAt_zero_seed, ← hc, ← h0]
  · rw [outputBit_eq_xorTaps hc, h0, stateAt_zero_seed, xorTaps_zero]

end outcomes

/-- The reset state with a unit that one shift takes to 0: width 4, taps 0x1, state 0x8 (the example of 41_lfsr.md
R125). -/
def shiftsToZero (u : UnitIx) : State :=
  State.reset.setUnit u { cfg := true, state := 8, taps := 1, width := 4 }

theorem shiftsToZero_unit (u : UnitIx) :
    (shiftsToZero u).lfsr[u] = { cfg := true, state := 8, taps := 1, width := 4 } :=
  vector_get_set_self _ _ _

theorem afterTimes_one_shiftsToZero_state (u : UnitIx) :
    (afterTimes (.lshift u) 1 (shiftsToZero u)).lfsr[u].state = 0 := by
  rw [afterTimes_lshift_unit (by rw [shiftsToZero_unit]), shiftsToZero_unit, stateAt, stateAt, ← shift_fst_eq_nextState]
  decide

/-! ### The statements -/

/-- Settles O34: the outcome of LNEW at each failing check in order, and of legal arguments. -/
theorem lnewConfiguresUnit : Obligations.LnewConfiguresUnit := by
  unfold Obligations.LnewConfiguresUnit
  intro u s
  refine ⟨?_, fun hw => exec_eq_raised (errorOf_lnew_of_width hw), fun h1 h64 =>
    ⟨fun hseed => exec_eq_raised (errorOf_lnew_of_seed h1 h64 hseed), fun h0 hlt =>
      ⟨fun htap => exec_eq_raised (errorOf_lnew_of_tap h1 h64 h0 hlt htap), exec_lnew_of_legal h1 h64 h0 hlt⟩⟩⟩
  revert u
  decide

/-- Settles O35: the model's feedback, a parity, is the XOR of the tapped bits. -/
theorem lfbReturnsFeedback : Obligations.LfbReturnsFeedback := by
  unfold Obligations.LfbReturnsFeedback
  intro u s
  refine ⟨?_, exec_unit_command_of_not_cfg (by simp), exec_lfb_of_cfg⟩
  revert u
  decide

/-- Settles O36: the model's shift agrees bit by bit with the formula over natural numbers. -/
theorem lshiftShiftsOnce : Obligations.LshiftShiftsOnce := by
  unfold Obligations.LshiftShiftsOnce
  intro u s
  refine ⟨?_, exec_unit_command_of_not_cfg (by simp), exec_lshift_of_cfg⟩
  revert u
  decide

/-- Settles O37: the outcome of LRD on an unconfigured and a configured unit. -/
theorem lrdReadsUnit : Obligations.LrdReadsUnit := by
  unfold Obligations.LrdReadsUnit
  intro u s
  refine ⟨?_, exec_unit_command_of_not_cfg (by simp), exec_lrd_of_cfg⟩
  revert u
  decide

/-- Settles O38: a zero state has feedback 0 and shifts to itself, and `shiftsToZero` is the rule's example. -/
theorem zeroStateIsLegalAndStays : Obligations.ZeroStateIsLegalAndStays := by
  unfold Obligations.ZeroStateIsLegalAndStays
  intro u s hc
  refine ⟨⟨_, exec_lshift_of_cfg hc, rfl, rfl⟩, fun h0 j => ?_, shiftsToZero u, ?_⟩
  · obtain ⟨hunit, hout⟩ := lshift_of_zero_state hc h0 j
    exact ⟨hunit, hout, afterTimes_lshift_err hc j⟩
  · have hx := shiftsToZero_unit u
    have hcx : (shiftsToZero u).lfsr[u].cfg = true := by rw [hx]
    exact ⟨hcx, by rw [hx], by rw [hx], by rw [hx], afterTimes_one_shiftsToZero_state u, afterTimes_lshift_err hcx 0⟩

end Sys2Proof.Machine

/-! PROOF. The Gold-code generator (42_gold.md R140 to R145): the loop of the model makes the statements' code and final
states, what GOLD answers, and how both depend on the arguments. -/

namespace Sys2Proof.Machine

open Sys2Proof.Spec

/-! ### The loop and the code -/

@[simp] theorem stateAt_zero (seed taps : Word) (w : Nat) : stateAt seed taps w 0 = seed := rfl

/-- The shifts after the first one start from the next state. -/
theorem stateAt_succ_eq_stateAt_nextState (seed taps : Word) (w j : Nat) :
    stateAt seed taps w (j + 1) = stateAt (nextState seed taps w) taps w j := by
  induction j with
  | zero => simp only [stateAt]
  | succ j ih => rw [stateAt, ih, ← stateAt]

/-- The loop of the model makes, position by position, the XOR of the two feedback bits, and ends in the states after as
many shifts (42_gold.md R140). -/
theorem goldLoop_eq (n : Nat) (p1 p2 : Word) (k : Nat) (x y : Word) :
    goldLoop n p1 p2 k x y [] =
      ((List.range k).map fun j => xorTaps (stateAt x p1 n j) p1 ^^ xorTaps (stateAt y p2 n j) p2,
        stateAt x p1 n k, stateAt y p2 n k) := by
  induction k generalizing x y with
  | zero => rfl
  | succ k ih =>
    simp only [goldLoop_succ, ih, List.range_succ_eq_map, List.map_cons, List.map_map, shift_fst_eq_nextState,
      feedback_eq_xorTaps, Function.comp_def, Nat.succ_eq_add_one, stateAt_succ_eq_stateAt_nextState, stateAt_zero]

theorem gold_eq (n : Nat) (p1 s1 p2 s2 : Word) :
    gold n p1 s1 p2 s2 = (goldCode n p1 s1 p2 s2, stateAt s1 p1 n (2 ^ n - 1), stateAt s2 p2 n (2 ^ n - 1)) :=
  goldLoop_eq n p1 p2 (2 ^ n - 1) s1 s2

theorem goldCode_length (n : Nat) (p1 s1 p2 s2 : Word) : (goldCode n p1 s1 p2 s2).length = 2 ^ n - 1 := by
  rw [goldCode, List.length_map, List.length_range]

/-- Two equal LFSRs cancel at every position (42_gold.md R144). -/
theorem goldCode_self (n : Nat) (p seed : Word) : goldCode n p seed p seed = List.replicate (2 ^ n - 1) false := by
  simp only [goldCode, Bool.xor_self, List.map_const', List.length_range]

/-! ### What a GOLD that completes leaves -/

/-- The unit a GOLD that completes leaves for one (tap mask, seed) pair: configured, after `2^n - 1` shifts
(42_gold.md R141). -/
def goldUnit (n : Nat) (taps seed : Word) : LfsrUnit :=
  { cfg := true, state := stateAt seed taps n (2 ^ n - 1), taps := taps, width := n }

/-- Writing both units in turn leaves exactly the two. -/
theorem vector_set_both {α : Type} (v : Vector α 2) (x y : α) : (v.set 0 x).set 1 y = #v[x, y] := by
  ext k hk
  interval_cases k <;> simp

theorem exec_gold_of_completes {bd : BufIx} {s : State} (h : Completes (.gold bd) s) :
    exec (.gold bd) s = .next { completed s with
      lfsr := #v[goldUnit s.a[0].toNat s.a[1] s.a[2], goldUnit s.a[0].toNat s.a[3] s.a[4]],
      buf := s.buf.set bd (some (goldCode s.a[0].toNat s.a[1] s.a[2] s.a[3] s.a[4])) } := by
  rw [exec_eq_completed h, effect, goldEffect, gold_eq, ← vector_set_both s.lfsr]
  rfl

/-- A GOLD that leaves `ERR` at OK has written the code and both units. -/
theorem gold_next_ok {bd : BufIx} {s t : State} (h : exec (.gold bd) s = .next t) (hok : t.status.err = .ok) :
    t.buf = s.buf.set bd (some (goldCode s.a[0].toNat s.a[1] s.a[2] s.a[3] s.a[4])) ∧
      t.lfsr = #v[goldUnit s.a[0].toNat s.a[1] s.a[2], goldUnit s.a[0].toNat s.a[3] s.a[4]] := by
  rw [exec_gold_of_completes (completes_of_next_ok h hok)] at h
  cases h
  exact ⟨rfl, rfl⟩

/-- A GOLD that completes has a width of at least 1 (42_gold.md R141). -/
theorem gold_width_pos {bd : BufIx} {s t : State} (h : exec (.gold bd) s = .next t) (hok : t.status.err = .ok) :
    1 ≤ s.a[0].toNat :=
  (completes_of_next_ok h hok).1

/-! ### Seeds that agree below the taps -/

section low_bits

variable {taps x y : Word} {m : Nat}

/-- The feedback reads only bits below the bound of the taps (41_lfsr.md R127). -/
theorem xorTaps_congr_of_low_bits (htaps : ∀ k, m ≤ k → taps.getLsbD k = false)
    (h : ∀ k, k < m → x.getLsbD k = y.getLsbD k) : xorTaps x taps = xorTaps y taps := by
  refine foldl_xor_congr false fun k _ => ?_
  rcases Nat.lt_or_ge k m with hk | hk
  · rw [h k hk]
  · rw [htaps k hk, Bool.false_and, Bool.false_and]

/-- Two states that agree below the bound of the taps agree on one more bit after every shift, since equal feedback bits
enter and the bits that agree move up (41_lfsr.md R127). -/
theorem stateAt_getLsbD_congr (w : Nat) (htaps : ∀ k, m ≤ k → taps.getLsbD k = false)
    (h : ∀ k, k < m → x.getLsbD k = y.getLsbD k) (j : Nat) :
    ∀ k, k < m + j → (stateAt x taps w j).getLsbD k = (stateAt y taps w j).getLsbD k := by
  induction j with
  | zero => exact h
  | succ j ih =>
    have hfb : xorTaps (stateAt x taps w j) taps = xorTaps (stateAt y taps w j) taps :=
      xorTaps_congr_of_low_bits htaps fun k hk => ih k (by omega)
    intro k hk
    rw [stateAt, stateAt, nextState_getLsbD, nextState_getLsbD, hfb]
    rcases k with _ | k
    · rfl
    · rw [Nat.add_sub_cancel, ih k (by omega)]

theorem xorTaps_stateAt_congr (w : Nat) (htaps : ∀ k, m ≤ k → taps.getLsbD k = false)
    (h : ∀ k, k < m → x.getLsbD k = y.getLsbD k) (j : Nat) :
    xorTaps (stateAt x taps w j) taps = xorTaps (stateAt y taps w j) taps :=
  xorTaps_congr_of_low_bits htaps fun k hk => stateAt_getLsbD_congr w htaps h j k (by omega)

/-- After as many shifts as the width every bit has been replaced, so the two states are equal. -/
theorem stateAt_eq_of_width_le {w j : Nat} (hj : 1 ≤ j) (hw : w ≤ j) (htaps : ∀ k, m ≤ k → taps.getLsbD k = false)
    (h : ∀ k, k < m → x.getLsbD k = y.getLsbD k) : stateAt x taps w j = stateAt y taps w j := by
  refine BitVec.eq_of_getLsbD_eq fun k _ => ?_
  rcases Nat.lt_or_ge k w with hk | hk
  · exact stateAt_getLsbD_congr w htaps h j k (by omega)
  · obtain ⟨i, rfl⟩ := Nat.exists_eq_add_of_le' hj
    simp [stateAt, nextState_getLsbD, Nat.not_lt.2 hk]

end low_bits

/-- Two seeds that differ only in bits at or above some bound of the taps (42_gold.md R145). -/
def AgreeBelowTaps (taps x y : Word) : Prop :=
  ∃ m, (∀ k, m ≤ k → taps.getLsbD k = false) ∧ ∀ k, k < m → x.getLsbD k = y.getLsbD k

theorem AgreeBelowTaps.refl (taps x : Word) : AgreeBelowTaps taps x x :=
  ⟨64, fun _ hk => BitVec.getLsbD_of_ge _ _ hk, fun _ _ => rfl⟩

/-! ### GOLD with seeds that agree below the taps -/

/-- The code depends on either seed only through its bits below the taps. -/
theorem goldCode_congr {n : Nat} {p1 s1 s1' p2 s2 s2' : Word} (h1 : AgreeBelowTaps p1 s1 s1')
    (h2 : AgreeBelowTaps p2 s2 s2') : goldCode n p1 s1 p2 s2 = goldCode n p1 s1' p2 s2' := by
  obtain ⟨_, htaps1, hseed1⟩ := h1
  obtain ⟨_, htaps2, hseed2⟩ := h2
  simp only [goldCode, xorTaps_stateAt_congr n htaps1 hseed1, xorTaps_stateAt_congr n htaps2 hseed2]

/-- The `2^n - 1` shifts of GOLD are at least `n`, so its final units are equal. -/
theorem goldUnit_congr {n : Nat} {taps x y : Word} (hn : 1 ≤ n) (h : AgreeBelowTaps taps x y) :
    goldUnit n taps x = goldUnit n taps y := by
  obtain ⟨_, htaps, hseed⟩ := h
  have hlt : n < 2 ^ n := Nat.lt_two_pow_self
  rw [goldUnit, goldUnit, stateAt_eq_of_width_le (by omega) (by omega) htaps hseed]

section seeds

variable {bd : BufIx} {s t t' : State} {seed : Word} {m : Nat}

/-- Two completing GOLDs that differ only in seeds that agree below the taps leave equal buffers and units. -/
theorem gold_same_of_agreeBelowTaps {v : Vector Word 5} (h0 : v[0] = s.a[0]) (h1 : v[1] = s.a[1]) (h3 : v[3] = s.a[3])
    (hseed1 : AgreeBelowTaps s.a[1] s.a[2] v[2]) (hseed2 : AgreeBelowTaps s.a[3] s.a[4] v[4])
    (h : exec (.gold bd) s = .next t) (h' : exec (.gold bd) { s with a := v } = .next t') (hok : t.status.err = .ok)
    (hok' : t'.status.err = .ok) : t.buf = t'.buf ∧ t.lfsr = t'.lfsr := by
  have hn := gold_width_pos h hok
  obtain ⟨hbuf, hunits⟩ := gold_next_ok h hok
  obtain ⟨hbuf', hunits'⟩ := gold_next_ok h' hok'
  rw [hbuf, hunits, hbuf', hunits', h0, h1, h3, goldCode_congr hseed1 hseed2, goldUnit_congr hn hseed1,
    goldUnit_congr hn hseed2]
  exact ⟨rfl, rfl⟩

theorem gold_same_of_first_seed (htaps : ∀ k, m ≤ k → s.a[1].getLsbD k = false)
    (hseed : ∀ k, k < m → seed.getLsbD k = s.a[2].getLsbD k) :
    exec (.gold bd) s = .next t → exec (.gold bd) { s with a := s.a.set 2 seed } = .next t' →
      t.status.err = .ok → t'.status.err = .ok → t.buf = t'.buf ∧ t.lfsr = t'.lfsr :=
  gold_same_of_agreeBelowTaps (by simp) (by simp) (by simp)
    ⟨m, htaps, fun k hk => by rw [Vector.getElem_set_self, hseed k hk]⟩
    (by rw [Vector.getElem_set_ne _ _ (by decide)]; exact .refl _ _)

theorem gold_same_of_second_seed (htaps : ∀ k, m ≤ k → s.a[3].getLsbD k = false)
    (hseed : ∀ k, k < m → seed.getLsbD k = s.a[4].getLsbD k) :
    exec (.gold bd) s = .next t → exec (.gold bd) { s with a := s.a.set 4 seed } = .next t' →
      t.status.err = .ok → t'.status.err = .ok → t.buf = t'.buf ∧ t.lfsr = t'.lfsr :=
  gold_same_of_agreeBelowTaps (by simp) (by simp) (by simp)
    (by rw [Vector.getElem_set_ne _ _ (by decide)]; exact .refl _ _)
    ⟨m, htaps, fun k hk => by rw [Vector.getElem_set_self, hseed k hk]⟩

end seeds

/-- The arguments of the example of 42_gold.md R145 pass every check, with either first seed. -/
theorem completes_gold_example {bd : BufIx} {s : State} {seed : Word} (hn : 10 ≤ s.params.goldNMax)
    (ha : s.a = #v[10, 0x9, seed, 0x10D, 0b1010101010]) (hseed : pairError 10 0x9 seed = none) :
    Completes (.gold bd) s := by
  have hpair : pairError 10 0x10D 0b1010101010 = none := by decide
  simp only [Completes, State.arg, ha]
  exact ⟨(by decide : 1 ≤ (10 : Word).toNat), (by decide : (10 : Word).toNat ≤ 64), hn, hseed, hpair⟩

/-! ### The statements -/

/-- Settles O42: the outcome of GOLD at its first failing check, and the code and final units of legal arguments. -/
theorem goldGeneratesCode : Obligations.GoldGeneratesCode := by
  unfold Obligations.GoldGeneratesCode
  intro bd s
  refine ⟨?_, fun e he => ?_, fun n hn he => ?_⟩
  · revert bd
    decide
  · rw [firstError_eq_errorOf] at he
    exact exec_eq_raised he
  · rw [firstError_eq_errorOf, errorOf_eq_none_iff] at he
    subst hn
    exact ⟨exec_gold_of_completes he, goldCode_length _ _ _ _ _⟩

/-- Settles O43: the code and the units a completing GOLD writes are functions of the argument registers. -/
theorem goldDependsOnArgumentsAlone : Obligations.GoldDependsOnArgumentsAlone := by
  unfold Obligations.GoldDependsOnArgumentsAlone
  intro bd bd' s s' t t' ha h h' hok hok'
  obtain ⟨hbuf, hunits⟩ := gold_next_ok h hok
  obtain ⟨hbuf', hunits'⟩ := gold_next_ok h' hok'
  rw [hbuf, hbuf', hunits, hunits', vector_get_set_self, vector_get_set_self, ha]
  exact ⟨rfl, rfl⟩

/-- Settles O44: equal pairs make equal feedback bits, which cancel, and equal units. -/
theorem goldEqualPairsGiveZeros : Obligations.GoldEqualPairsGiveZeros := by
  unfold Obligations.GoldEqualPairsGiveZeros
  intro bd s t htaps hseed h hok
  obtain ⟨hbuf, hunits⟩ := gold_next_ok h hok
  rw [hbuf, hunits, vector_get_set_self, htaps, hseed, goldCode_self]
  exact ⟨rfl, rfl⟩

/-- Settles O45: the feedback reads no seed bit at or above the bound of the taps, and the shifts of GOLD push every such
bit out. In the example the taps {0, 3} have the bound 4, and the seeds 1 and 17 agree below it. -/
theorem goldIgnoresSeedBitsAboveTaps : Obligations.GoldIgnoresSeedBitsAboveTaps := by
  unfold Obligations.GoldIgnoresSeedBitsAboveTaps
  refine ⟨fun _ _ _ _ _ _ => gold_same_of_first_seed, fun _ _ _ _ _ _ => gold_same_of_second_seed,
    fun bd s hn ha => ?_⟩
  have hc := exec_gold_of_completes (bd := bd) (completes_gold_example hn ha (by decide))
  have hc' := exec_gold_of_completes (bd := bd)
    (completes_gold_example (s := { s with a := s.a.set 2 17 }) (seed := 17) hn (by rw [ha]; rfl) (by decide))
  have htaps : ∀ k, 4 ≤ k → s.a[1].getLsbD k = false := by
    rw [ha]
    exact (badTaps_eq_false_iff 4 0x9).1 (by decide)
  have hseed : ∀ k, k < 4 → (17 : Word).getLsbD k = s.a[2].getLsbD k := by
    rw [ha]
    exact (by decide : ∀ k, k < 4 → (17 : Word).getLsbD k = (1 : Word).getLsbD k)
  exact ⟨_, _, hc, hc', rfl, rfl, gold_same_of_first_seed htaps hseed hc hc' rfl rfl⟩

end Sys2Proof.Machine

/-! PROOF. The spreader (43_spreader.md R150 to R153): the words of SPENC and SPDEC, what the two answer, and XOR with
one code twice as the identity. -/

namespace Sys2Proof.Machine

open Sys2Proof.Spec

/-! ### The word of a command with three buffer operands -/

/-- The word of format BDAB as a sum: `OPC` and the fields `D`, `A`, `B` at bits 8, 12 and 16 (30_encoding.md R71). -/
def fieldsWord (op : Op) (bd ba bb : BufIx) : Word :=
  BitVec.ofNat 64 (op.opcode.toNat + 2 ^ 8 * bd.val + 2 ^ 12 * ba.val + 2 ^ 16 * bb.val)

section fields

variable (op : Op) (bd ba bb : BufIx)

theorem opcode_toNat_lt : op.opcode.toNat < 2 ^ 8 := by cases op <;> decide

theorem fieldsWord_toNat : (fieldsWord op bd ba bb).toNat =
    op.opcode.toNat + 2 ^ 8 * bd.val + 2 ^ 12 * ba.val + 2 ^ 16 * bb.val := by
  have hop := opcode_toNat_lt op
  rw [fieldsWord, BitVec.toNat_ofNat]
  omega

/-- The three fields end below bit 20. -/
theorem fieldsWord_getLsbD_of_le {k : Nat} (hk : 20 ≤ k) : (fieldsWord op bd ba bb).getLsbD k = false := by
  refine (toNat_lt_two_pow_iff _ 20).1 ?_ k hk
  have hop := opcode_toNat_lt op
  rw [fieldsWord_toNat]
  omega

theorem opcField_fieldsWord : opcField (fieldsWord op bd ba bb) = op.opcode := by
  have hop := opcode_toNat_lt op
  rw [opcField_eq_opcode_iff, fieldsWord_toNat]
  omega

theorem bufField_fieldsWord : bufField (fieldsWord op bd ba bb) 8 = bd ∧ bufField (fieldsWord op bd ba bb) 12 = ba ∧
    bufField (fieldsWord op bd ba bb) 16 = bb := by
  have hop := opcode_toNat_lt op
  simp only [bufField, fieldsWord_toNat, Nat.shiftRight_eq_div_pow, Fin.ext_iff, Fin.val_ofNat]
  omega

/-- A word of the format BDAB decodes to its row's command with its three fields (30_encoding.md R76). -/
theorem decode_fieldsWord (h : op.format = .BDAB) :
    decode (fieldsWord op bd ba bb) = .ok (op.instr bd ba bb (unitField (fieldsWord op bd ba bb))) := by
  obtain ⟨hd, ha, hb⟩ := bufField_fieldsWord op bd ba bb
  refine (decode_ok_iff _ _).2 ⟨op, ?_, opcField_fieldsWord op bd ba bb, ?_, by rw [hd, ha, hb]⟩
  · exact (upperHalf_eq_zero_iff _).2 fun k hk => fieldsWord_getLsbD_of_le op bd ba bb (by omega)
  · rw [h, and_not_keep_eq_zero_iff]
    intro k hk
    exact fieldsWord_getLsbD_of_le op bd ba bb (by simpa [usedBits] using hk)

end fields

/-! ### The spread function -/

theorem bitAt_spread {d : BitSeq} {k : Nat} (c : BitSeq) (hk : k < d.length) :
    bitAt (spread d c) k = (bitAt d k ^^ bitAt c (k % c.length)) := by
  simp [bitAt, spread, hk]

/-- The model's spread is the statements' list, position by position (43_spreader.md R150). -/
theorem spread_eq_ofFn (d : BitSeq) {code : BitSeq} (hc : 0 < code.length) :
    spread d code =
      List.ofFn fun k : Fin d.length => d[k] ^^ (code[k.val % code.length]'(Nat.mod_lt k.val hc)) := by
  refine List.ext_getElem (by simp) fun k hk _ => ?_
  have hd : k < d.length := by rwa [spread_length] at hk
  rw [← bitAt_of_lt hk, bitAt_spread code hd, bitAt_of_lt hd, bitAt_of_lt (Nat.mod_lt k hc), List.getElem_ofFn]
  rfl

/-- XOR with the same repeated code twice is the identity (43_spreader.md R153). -/
theorem spread_spread (d c : BitSeq) : spread (spread d c) c = d := by
  refine List.ext_getElem (by simp) fun k hk hd => ?_
  have hs : k < (spread d c).length := by rwa [spread_length]
  rw [← bitAt_of_lt hk, bitAt_spread c hs, bitAt_spread c hd, Bool.xor_assoc, Bool.xor_self, Bool.xor_false,
    bitAt_of_lt hd]

/-! ### What SPENC and SPDEC answer -/

section outcomes

variable {s : State} {bd ba bb : BufIx} {i : Instr}

/-- The two commands are one operation (43_spreader.md R152). -/
theorem exec_spdec_eq_exec_spenc : exec (.spdec bd ba bb) s = exec (.spenc bd ba bb) s := rfl

theorem exec_spreader_eq_exec_spenc (hi : i ∈ [Instr.spenc bd ba bb, .spdec bd ba bb]) :
    exec i s = exec (.spenc bd ba bb) s := by
  simp only [List.mem_cons, List.not_mem_nil, or_false] at hi
  rcases hi with rfl | rfl
  · rfl
  · exact exec_spdec_eq_exec_spenc

theorem errorOf_spenc_of_none (h : s.buf[ba] = none ∨ s.buf[bb] = none) :
    errorOf (.spenc bd ba bb) s = some .notAllocated := by
  rw [errorOf]
  by_cases ha : s.buf[ba] = none
  · rw [if_pos ha]
  · rw [if_neg ha, if_pos (h.resolve_left ha)]

theorem exec_spreader_of_none (hi : i ∈ [Instr.spenc bd ba bb, .spdec bd ba bb])
    (h : s.buf[ba] = none ∨ s.buf[bb] = none) : exec i s = .next (raised .notAllocated s) := by
  rw [exec_spreader_eq_exec_spenc hi]
  exact exec_eq_raised (errorOf_spenc_of_none h)

theorem exec_spreader_of_some {d c : BitSeq} (hi : i ∈ [Instr.spenc bd ba bb, .spdec bd ba bb])
    (ha : s.buf[ba] = some d) (hb : s.buf[bb] = some c) :
    exec i s = .next { completed s with buf := s.buf.set bd (some (spread d c)) } := by
  rw [exec_spreader_eq_exec_spenc hi, exec_eq_completed (i := .spenc bd ba bb) ⟨⟨d, ha⟩, c, hb⟩, effect,
    State.seqAt_of_some ha, State.seqAt_of_some hb]
  rfl

end outcomes

/-! ### The statements -/

/-- Settles O46: the words of the two commands by their fields, and their one outcome with and without both sources. -/
theorem spreadersXorCyclicCode : Obligations.SpreadersXorCyclicCode := by
  unfold Obligations.SpreadersXorCyclicCode
  intro bd ba bb s
  refine ⟨decode_fieldsWord .spenc bd ba bb rfl, decode_fieldsWord .spdec bd ba bb rfl, exec_spdec_eq_exec_spenc,
    fun i hi => ⟨exec_spreader_of_none hi, fun d code hc ha hb => ?_⟩⟩
  rw [exec_spreader_of_some hi ha hb, spread_eq_ofFn d hc]

/-- Settles O47: the first command leaves the code's buffer as it was, and spreading twice with it is the identity. -/
theorem spreadRoundTripRestoresData : Obligations.SpreadRoundTripRestoresData := by
  unfold Obligations.SpreadRoundTripRestoresData
  intro s b1 b2 ba bb d c i j ha hb hne hi hj
  have hdata : (s.buf.set b1 (some (spread d c)))[b1] = some (spread d c) := vector_get_set_self _ _ _
  have hcode : (s.buf.set b1 (some (spread d c)))[bb] = some c := (vector_get_set_ne _ _ hne).trans hb
  refine ⟨_, _, exec_spreader_of_some hi ha hb, exec_spreader_of_some hj hdata hcode, ?_, rfl⟩
  rw [spread_spread]
  exact vector_get_set_self _ _ _

end Sys2Proof.Machine

/-! PROOF. The correlation functions (44_correlation.md R161, R165, R167, R170, R171): the correlation sum as a sum over
positions and as a count, the symmetry of the autocorrelation, the largest off-peak magnitude, and the sum under XOR. -/

namespace Sys2Proof.Machine

open Sys2Proof.Spec

/-! ### The correlation sum as a sum over positions -/

theorem csum_eq_sum_range {a b : BitSeq} (h : a.length = b.length) :
    csum a b = ∑ i ∈ Finset.range a.length, sig (bitAt a i) * sig (bitAt b i) := by
  have hlist : List.zipWith (fun x y => sig x * sig y) a b =
      List.ofFn fun i : Fin a.length => sig (bitAt a i) * sig (bitAt b i) := by
    refine List.ext_getElem (by simp [h]) fun k _ hk => ?_
    rw [List.length_ofFn] at hk
    rw [List.getElem_zipWith, List.getElem_ofFn, bitAt_of_lt hk, bitAt_of_lt (h ▸ hk)]
  rw [csum, hlist, List.sum_ofFn, Finset.sum_range]

theorem csum_eq_sum_antipodal {a b : BitSeq} (h : a.length = b.length) :
    csum a b = ∑ i : Fin a.length, antipodal a[i] * antipodal (b[i.val]'(h ▸ i.isLt)) := by
  rw [csum_eq_sum_range h, Finset.sum_range]
  refine Finset.sum_congr rfl fun i _ => ?_
  rw [bitAt_of_lt i.isLt, bitAt_of_lt (h ▸ i.isLt)]
  rfl

/-! ### The correlation sum as a count -/

/-- A product of two samples is +1 where the bits agree and -1 where they do not. -/
theorem sig_mul_sig (x y : Bool) : sig x * sig y = if x == y then 1 else -1 := by
  cases x <;> cases y <;> rfl

theorem csum_eq_agreements_sub_disagreements (a b : BitSeq) :
    csum a b = (agreements a b : Int) - (disagreements a b : Int) := by
  induction a generalizing b with
  | nil => simp [agreements, disagreements]
  | cons x a ih =>
    cases b with
    | nil => simp [csum, agreements, disagreements]
    | cons y b =>
      rw [csum_cons, ih, sig_mul_sig]
      by_cases hxy : x = y
      · simp [agreements, disagreements, hxy]
        omega
      · simp [agreements, disagreements, hxy]
        omega

theorem agreements_add_disagreements {a b : BitSeq} (h : a.length = b.length) :
    agreements a b + disagreements a b = a.length := by
  have hsplit := List.length_eq_countP_add_countP (fun p : Bool × Bool => p.1 == p.2) (l := a.zip b)
  rw [List.length_zip, ← h, Nat.min_self] at hsplit
  rw [hsplit, agreements, disagreements]
  congr 2
  funext p
  cases hp : p.1 == p.2 <;> simp [bne, hp]

theorem csum_eq_corrSum {a b : BitSeq} (h : a.length = b.length) : csum a b = corrSum a b := by
  have hlen := agreements_add_disagreements h
  rw [csum_eq_agreements_sub_disagreements, corrSum]
  omega

/-! ### Laws of the correlation sum -/

theorem csum_comm (a b : BitSeq) : csum a b = csum b a := by
  rw [csum, csum, List.zipWith_comm]
  simp only [Int.mul_comm]

theorem sig_not (b : Bool) : sig (!b) = -sig b := by cases b <;> rfl

theorem csum_map_not (a b : BitSeq) : csum a (b.map fun v => !v) = -csum a b := by
  induction a generalizing b with
  | nil => simp
  | cons x a ih =>
    cases b with
    | nil => simp [csum]
    | cons y b =>
      rw [List.map_cons, csum_cons, csum_cons, ih, sig_not]
      ring

theorem csum_self_map_not (a : BitSeq) : csum a (a.map fun v => !v) = -(a.length : Int) := by
  rw [csum_map_not, csum_self_eq_length]

/-- A correlation sum has the parity of the length, because it differs from it by twice a count. -/
theorem csum_emod_two {a b : BitSeq} (h : a.length = b.length) : csum a b % 2 = (a.length : Int) % 2 := by
  rw [csum_eq_corrSum h, corrSum]
  omega

/-! ### The autocorrelation -/

theorem bitAt_shifted {x : BitSeq} {i : Nat} (k : Nat) (hi : i < x.length) :
    bitAt (shifted x k) i = bitAt x ((i + k) % x.length) := by
  simp [bitAt, shifted, hi]

theorem acorr_eq_sum_range (x : BitSeq) (k : Nat) :
    acorr x k = ∑ i ∈ Finset.range x.length, sig (bitAt x i) * sig (bitAt x ((i + k) % x.length)) := by
  rw [acorr, csum_eq_sum_range (shifted_length x k).symm]
  exact Finset.sum_congr rfl fun i hi => by rw [bitAt_shifted k (Finset.mem_range.1 hi)]

theorem acorr_eq_autocorr (x : BitSeq) (k : Nat) : acorr x k = autocorr x k := by
  rw [acorr_eq_sum_range, autocorr, Finset.sum_range]
  refine Finset.sum_congr rfl fun i _ => ?_
  rw [bitAt_of_lt i.isLt, bitAt_of_lt (Nat.mod_lt _ (Nat.lt_of_le_of_lt (Nat.zero_le _) i.isLt))]
  rfl

theorem acorr_zero (x : BitSeq) : acorr x 0 = x.length := by
  rw [acorr, shifted_zero, csum_self_eq_length]

/-- Moving a position on by `k` and then by `n - k` around a circle of `n` positions returns to it. -/
theorem add_mod_add_sub_mod {n k i : Nat} (hk : k ≤ n) (hi : i < n) : ((i + k) % n + (n - k)) % n = i := by
  have hsum : i + k + (n - k) = i + n := by omega
  rw [Nat.mod_add_mod, hsum, Nat.add_mod_right, Nat.mod_eq_of_lt hi]

/-- Entry `k` and entry `L - k` sum the same products, reached from the two ends of each pair of positions. -/
theorem acorr_sub {x : BitSeq} {k : Nat} (hk : k ≤ x.length) : acorr x k = acorr x (x.length - k) := by
  rw [acorr_eq_sum_range, acorr_eq_sum_range]
  have hback {i : Nat} (hi : i < x.length) : ((i + (x.length - k)) % x.length + k) % x.length = i := by
    simpa [Nat.sub_sub_self hk] using add_mod_add_sub_mod (Nat.sub_le x.length k) hi
  refine Finset.sum_nbij' (fun i => (i + k) % x.length) (fun j => (j + (x.length - k)) % x.length) ?_ ?_ ?_ ?_ ?_ <;>
    intro i hi <;> have hlt := Finset.mem_range.1 hi
  · exact Finset.mem_range.2 (Nat.mod_lt _ (by omega))
  · exact Finset.mem_range.2 (Nat.mod_lt _ (by omega))
  · exact add_mod_add_sub_mod hk hlt
  · exact hback hlt
  · rw [add_mod_add_sub_mod hk hlt, Int.mul_comm]

/-! ### The largest off-peak magnitude -/

/-- `m` is the largest magnitude among the entries past the first, 0 where there is none (44_correlation.md R167). -/
def IsOffPeakMax (v : List Int) (m : Nat) : Prop :=
  (∀ x ∈ v.drop 1, |x| ≤ m) ∧ ((v.drop 1 = [] ∧ m = 0) ∨ ∃ x ∈ v.drop 1, |x| = m)

theorem maxoff_cons_cons (a x : Int) (l : List Int) : maxoff (a :: x :: l) = max x.natAbs (maxoff (a :: l)) := rfl

theorem isOffPeakMax_cons_cons {a x : Int} {l : List Int} {m : Nat} (h : IsOffPeakMax (a :: l) m) :
    IsOffPeakMax (a :: x :: l) (max x.natAbs m) := by
  obtain ⟨hle, hatt⟩ := h
  have habs := Int.abs_eq_natAbs x
  refine ⟨List.forall_mem_cons.2 ⟨by omega, fun y hy => (hle y hy).trans (by omega)⟩, .inr ?_⟩
  rcases Nat.le_total m x.natAbs with hm | hm
  · exact ⟨x, List.mem_cons_self, by omega⟩
  · rcases hatt with ⟨-, rfl⟩ | ⟨y, hy, hym⟩
    · exact ⟨x, List.mem_cons_self, by omega⟩
    · exact ⟨y, List.mem_cons_of_mem _ hy, by omega⟩

theorem isOffPeakMax_maxoff (v : List Int) : IsOffPeakMax v (maxoff v) := by
  cases v with
  | nil => exact ⟨nofun, .inl ⟨rfl, rfl⟩⟩
  | cons a l =>
    induction l with
    | nil => exact ⟨nofun, .inl ⟨rfl, rfl⟩⟩
    | cons x l ih => exact isOffPeakMax_cons_cons ih

/-- A bound on every entry past the first bounds the largest magnitude. -/
theorem IsOffPeakMax.le_of_forall {v : List Int} {m n : Nat} (h : IsOffPeakMax v m) (hv : ∀ x ∈ v.drop 1, |x| ≤ n) :
    m ≤ n := by
  obtain ⟨-, ⟨-, rfl⟩ | ⟨x, hx, hxm⟩⟩ := h
  · exact Nat.zero_le n
  · exact Int.ofNat_le.1 (hxm ▸ hv x hx)

/-! ### XOR and the product of samples -/

theorem sig_xor (a b : Bool) : sig (a ^^ b) = -(sig a * sig b) := by cases a <;> cases b <;> rfl

theorem spread_replicate (v : Bool) (c : BitSeq) :
    spread (List.replicate c.length v) c = c.map fun u => v ^^ u := by
  refine List.ext_getElem (by simp) fun k hk hc => ?_
  rw [List.length_map] at hc
  have hd : k < (List.replicate c.length v).length := by rwa [List.length_replicate]
  rw [← bitAt_of_lt hk, bitAt_spread c hd, Nat.mod_eq_of_lt hc, bitAt_of_lt hd, bitAt_of_lt hc,
    List.getElem_replicate, List.getElem_map]

theorem spread_replicate_false (c : BitSeq) : spread (List.replicate c.length false) c = c := by
  simp [spread_replicate]

theorem spread_replicate_true (c : BitSeq) : spread (List.replicate c.length true) c = c.map fun v => !v := by
  simp [spread_replicate]

/-! ### The statements -/

/-- Settles O54: position by position the model's sum is the statement's, and a product of samples counts an agreement
or a disagreement. -/
theorem correlationSumForms : Obligations.CorrelationSumForms := by
  unfold Obligations.CorrelationSumForms
  exact fun a b h => ⟨csum_eq_sum_antipodal h, csum_eq_agreements_sub_disagreements a b, csum_eq_corrSum h⟩

/-- Settles O55: the laws of the sum, and for the autocorrelation the sum of a sequence with its own shift. -/
theorem correlationLaws : Obligations.CorrelationLaws := by
  unfold Obligations.CorrelationLaws
  exact fun a b x h => ⟨csum_self_eq_length a, csum_self_map_not a, csum_comm a b, csum_emod_two h,
    fun _ => acorr_zero x, fun k hk => ⟨fun _ => acorr_sub (Nat.le_of_lt hk),
      csum_emod_two (shifted_length x k).symm⟩⟩

/-- Settles O56: the sign of XOR bit by bit, and the code or its complement as the result of spreading a constant
sequence over it. -/
theorem bitDomainSignConvention : Obligations.BitDomainSignConvention := by
  unfold Obligations.BitDomainSignConvention
  refine ⟨fun a b => ⟨sig_xor a b, by rw [sig_not, sig_xor, neg_neg]⟩, fun c =>
    ⟨spread_replicate_false c, spread_replicate_true c, ?_, ?_⟩⟩
  · rw [spread_replicate_false, csum_self_eq_length]
  · rw [spread_replicate_true, csum_comm, csum_self_map_not]

end Sys2Proof.Machine

/-! PROOF. The correlation commands (44_correlation.md R160, R162 to R164, R166, R168, R169): the words of the
two-source commands, what each command answers, and the exactness of the numbers its registers return. -/

namespace Sys2Proof.Machine

open Sys2Proof.Spec

/-! ### The word of a command with two source operands -/

section fields

variable (op : Op) (ba bb : BufIx)

/-- With field `D` at 0, bits 8 to 11 of the word are 0. -/
theorem fieldsWord_zero_getLsbD {k : Nat} (h8 : 8 ≤ k) (h12 : k < 12) : (fieldsWord op 0 ba bb).getLsbD k = false := by
  have hop := opcode_toNat_lt op
  rw [BitVec.getLsbD, Nat.testBit_eq_decide_div_mod_eq, fieldsWord_toNat]
  interval_cases k <;> simp <;> omega

/-- A word of the format BAB decodes to its row's command with its two fields (30_encoding.md R76). -/
theorem decode_fieldsWord_zero (h : op.format = .BAB) :
    decode (fieldsWord op 0 ba bb) = .ok (op.instr 0 ba bb (unitField (fieldsWord op 0 ba bb))) := by
  obtain ⟨hd, ha, hb⟩ := bufField_fieldsWord op 0 ba bb
  refine (decode_ok_iff _ _).2 ⟨op, ?_, opcField_fieldsWord op 0 ba bb, ?_, by rw [hd, ha, hb]⟩
  · exact (upperHalf_eq_zero_iff _).2 fun k hk => fieldsWord_getLsbD_of_le op 0 ba bb (by omega)
  · rw [h, and_not_keep_eq_zero_iff]
    intro k hk
    simp only [usedBits, Bool.or_eq_false_iff, Bool.and_eq_false_iff, decide_eq_false_iff_not] at hk
    rcases Nat.lt_or_ge k 12 with h12 | h12
    · exact fieldsWord_zero_getLsbD op ba bb (by omega) h12
    · exact fieldsWord_getLsbD_of_le op 0 ba bb (by omega)

end fields

/-! ### Words and result registers -/

theorem word64_sig (b : Bool) : word64 (sig b) = if b then 0x0000000000000001 else 0xFFFFFFFFFFFFFFFF := by
  cases b <;> rfl

theorem vector_set_first {α : Type} (v : Vector α 3) (x : α) : v.set 0 x = #v[x, v[1], v[2]] := by
  ext k hk
  interval_cases k <;> simp

theorem vector_set_first_two {α : Type} (v : Vector α 3) (x y : α) : (v.set 0 x).set 1 y = #v[x, y, v[2]] := by
  ext k hk
  interval_cases k <;> simp

/-- An integer in `[-n, n]` for a length within `2^31` is read back from its register unchanged. -/
theorem toInt_ofInt_of_abs_le {x : Int} {n : Nat} (hn : n ≤ 2 ^ 31) (hx : |x| ≤ n) :
    (BitVec.ofInt 64 x).toInt = x ∧ |(BitVec.ofInt 64 x).toInt| ≤ n := by
  obtain ⟨hlo, hhi⟩ := abs_le.1 hx
  have hint : (BitVec.ofInt 64 x).toInt = x := BitVec.toInt_ofInt_eq_self (by decide) (by omega) (by omega)
  exact ⟨hint, by rwa [hint]⟩

theorem abs_corrSum_le {x y : BitSeq} (h : x.length = y.length) : |corrSum x y| ≤ x.length := by
  rw [← csum_eq_corrSum h]
  exact abs_le.2 (csum_bounds x y)

/-! ### What the invariant says of a source and of the correlation vector -/

theorem State.Inv.length_bounds {s : State} (h : s.Inv) {b : BufIx} {bits : BitSeq} (hb : s.buf[b] = some bits) :
    1 ≤ bits.length ∧ bits.length ≤ 2 ^ 31 := by
  obtain ⟨hwf, hbuf, -⟩ := h
  obtain ⟨hpos, hle⟩ := hbuf b bits hb
  exact ⟨hpos, hle.trans (Params.maxLen_le_of_wf hwf)⟩

theorem State.Inv.cv_bounds {s : State} (h : s.Inv) (hv : s.cv.valid = true) :
    1 ≤ s.cv.len ∧ s.cv.len ≤ 2 ^ 31 ∧ s.cv.den = s.cv.len ∧ s.cv.val.length = s.cv.len ∧
      s.cv.val[0]? = some (s.cv.len : Int) ∧ ∀ x ∈ s.cv.val, -(s.cv.len : Int) ≤ x ∧ x ≤ s.cv.len := by
  obtain ⟨hwf, -, -, ⟨hvalid, -⟩, -⟩ := h
  obtain ⟨hpos, hle, hrest⟩ := hvalid hv
  exact ⟨hpos, hle.trans (Params.maxLen_le_of_wf hwf), hrest⟩

/-- A vector of positive length is valid, because an invalid one has length 0 (10_state.md R35). -/
theorem State.Inv.cv_valid_of_len_pos {s : State} (h : s.Inv) (hlen : 0 < s.cv.len) : s.cv.valid = true := by
  obtain ⟨-, -, -, ⟨-, hinvalid⟩, -⟩ := h
  by_contra hv
  obtain ⟨hzero, -⟩ := hinvalid (Bool.eq_false_of_not_eq_true hv)
  omega

section outcomes

variable {s t : State} {ba bb : BufIx} {i : Instr} {bits x y : BitSeq}

/-! ### SIG -/

theorem errorOf_sig_of_none (hb : s.buf[ba] = none) : errorOf (.sig ba) s = some .notAllocated := if_pos hb

theorem errorOf_sig_of_le (hb : s.buf[ba] = some bits) (h : bits.length ≤ s.a[0].toNat) :
    errorOf (.sig ba) s = some .indexOutOfRange := by
  rw [errorOf, State.seqAt_of_some hb, State.arg_zero, hb, if_neg nofun, if_pos h]

theorem exec_sig_of_lt (hb : s.buf[ba] = some bits) (h : s.a[0].toNat < bits.length) :
    exec (.sig ba) s = .next { completed s with
      r := s.r.set 0 (if bits[s.a[0].toNat] then 0x0000000000000001 else 0xFFFFFFFFFFFFFFFF) } := by
  have hc : Completes (.sig ba) s := ⟨⟨bits, hb⟩, by rwa [State.seqAt_of_some hb]⟩
  rw [exec_eq_completed hc, effect, State.seqAt_of_some hb, State.arg_zero, bitAt_of_lt h, word64_sig]
  rfl

/-! ### NXCORR and CSUM, whose checks are the same -/

theorem errorOf_csum_eq_errorOf_nxcorr : errorOf (.csum ba bb) s = errorOf (.nxcorr ba bb) s := rfl

theorem errorOf_nxcorr_of_none (h : s.buf[ba] = none ∨ s.buf[bb] = none) :
    errorOf (.nxcorr ba bb) s = some .notAllocated := by
  rw [errorOf]
  by_cases ha : s.buf[ba] = none
  · rw [if_pos ha]
  · rw [if_neg ha, if_pos (h.resolve_left ha)]

theorem errorOf_nxcorr_of_length_ne (ha : s.buf[ba] = some x) (hb : s.buf[bb] = some y) (h : x.length ≠ y.length) :
    errorOf (.nxcorr ba bb) s = some .lengthMismatch := by
  rw [errorOf, State.seqAt_of_some ha, State.seqAt_of_some hb, ha, hb, if_neg nofun, if_neg nofun, if_pos h]

theorem completes_nxcorr_iff (ha : s.buf[ba] = some x) (hb : s.buf[bb] = some y) :
    Completes (.nxcorr ba bb) s ↔ x.length = y.length := by
  rw [Completes, State.seqAt_of_some ha, State.seqAt_of_some hb]
  exact ⟨fun ⟨_, _, h⟩ => h, fun h => ⟨⟨x, ha⟩, ⟨y, hb⟩, h⟩⟩

theorem exec_nxcorr_of_length_eq (ha : s.buf[ba] = some x) (hb : s.buf[bb] = some y) (h : x.length = y.length) :
    exec (.nxcorr ba bb) s = .next { completed s with
      r := #v[BitVec.ofInt 64 (corrSum x y), BitVec.ofNat 64 x.length, s.r[2]] } := by
  rw [exec_eq_completed ((completes_nxcorr_iff ha hb).2 h), effect, State.seqAt_of_some ha, State.seqAt_of_some hb,
    csum_eq_corrSum h, ← vector_set_first_two]
  rfl

theorem exec_csum_of_length_eq (ha : s.buf[ba] = some x) (hb : s.buf[bb] = some y) (h : x.length = y.length) :
    exec (.csum ba bb) s = .next { completed s with
      r := #v[BitVec.ofInt 64 (corrSum x y), s.r[1], s.r[2]] } := by
  rw [exec_eq_completed (i := .csum ba bb) ((completes_nxcorr_iff ha hb).2 h), effect, State.seqAt_of_some ha,
    State.seqAt_of_some hb, csum_eq_corrSum h, ← vector_set_first]
  rfl

/-- The numerator either command returns is the exact correlation sum, and NXCORR's denominator is the length
(44_correlation.md R160). -/
theorem exec_pair_exact (hinv : s.Inv) (hi : i ∈ [Instr.nxcorr ba bb, .csum ba bb]) (ha : s.buf[ba] = some x)
    (hb : s.buf[bb] = some y) (h : exec i s = .next t) (hok : t.status.err = .ok) :
    t.r[0].toInt = corrSum x y ∧ |t.r[0].toInt| ≤ x.length ∧
      (i = .nxcorr ba bb → t.r[1].toNat = x.length ∧ 1 ≤ t.r[1].toNat) := by
  obtain ⟨hpos, hle⟩ := hinv.length_bounds ha
  have hc := completes_of_next_ok h hok
  simp only [List.mem_cons, List.not_mem_nil, or_false] at hi
  have hlen : x.length = y.length := by
    rcases hi with rfl | rfl <;> exact (completes_nxcorr_iff ha hb).1 hc
  obtain ⟨hint, habs⟩ := toInt_ofInt_of_abs_le hle (abs_corrSum_le hlen)
  rcases hi with rfl | rfl
  · rw [exec_nxcorr_of_length_eq ha hb hlen] at h
    obtain rfl := Host.Outcome.next.inj h
    have hden : (BitVec.ofNat 64 x.length).toNat = x.length := toNat_ofNat_of_le hle
    exact ⟨hint, habs, fun _ => ⟨hden, hpos.trans_eq hden.symm⟩⟩
  · rw [exec_csum_of_length_eq ha hb hlen] at h
    obtain rfl := Host.Outcome.next.inj h
    exact ⟨hint, habs, nofun⟩

/-! ### PACORR -/

theorem errorOf_pacorr_of_none (hb : s.buf[ba] = none) : errorOf (.pacorr ba) s = some .notAllocated := if_pos hb

theorem exec_pacorr_of_some (hb : s.buf[ba] = some x) :
    exec (.pacorr ba) s = .next { completed s with
      cv := { valid := true, len := x.length, den := x.length, val := (List.range x.length).map (autocorr x) } } := by
  rw [exec_eq_completed (i := .pacorr ba) ⟨x, hb⟩, effect, State.seqAt_of_some hb, ← funext (acorr_eq_autocorr x)]
  rfl

/-! ### MAXOFF -/

theorem errorOf_maxoff_of_not_valid (hv : s.cv.valid = false) : errorOf .maxoff s = some .notAllocated := by
  rw [errorOf, hv, if_neg Bool.false_ne_true]

theorem exec_maxoff_of_valid (hv : s.cv.valid = true) :
    exec .maxoff s = .next { completed s with
      r := #v[BitVec.ofNat 64 (maxoff s.cv.val), BitVec.ofNat 64 s.cv.den, BitVec.ofNat 64 s.cv.len] } := by
  rw [exec_eq_completed (i := .maxoff) hv, effect, ← vector_set_all_three s.r]
  rfl

/-- A vector of one entry has none past the first (44_correlation.md R167). -/
theorem exec_maxoff_of_len_one (hinv : s.Inv) (hlen : s.cv.len = 1) :
    ∃ t, exec .maxoff s = .next t ∧ t.status.err = .ok ∧ t.r[0] = 0 := by
  have hv := hinv.cv_valid_of_len_pos (by omega)
  obtain ⟨-, -, -, hval, -⟩ := hinv.cv_bounds hv
  have hmax : maxoff s.cv.val = 0 := by
    have hnil : s.cv.val.drop 1 = [] := List.drop_eq_nil_of_le (by omega)
    rw [maxoff, hnil, List.foldr_nil]
  refine ⟨_, exec_maxoff_of_valid hv, rfl, ?_⟩
  rw [hmax]
  rfl

theorem maxoff_le_len (hinv : s.Inv) (hv : s.cv.valid = true) : maxoff s.cv.val ≤ s.cv.len := by
  obtain ⟨-, -, -, -, -, hbounds⟩ := hinv.cv_bounds hv
  exact (isOffPeakMax_maxoff s.cv.val).le_of_forall fun x hx => abs_le.2 (hbounds x (List.mem_of_mem_drop hx))

theorem exec_maxoff_exact (hinv : s.Inv) (h : exec .maxoff s = .next t) (hok : t.status.err = .ok) :
    t.r[0].toNat ≤ s.cv.len ∧ t.r[1].toNat = s.cv.den ∧ 1 ≤ t.r[1].toNat ∧
      (∀ x ∈ s.cv.val.drop 1, |x| ≤ t.r[0].toNat) ∧
      ((s.cv.val.drop 1 = [] ∧ t.r[0] = 0) ∨ ∃ x ∈ s.cv.val.drop 1, |x| = t.r[0].toNat) := by
  have hv : s.cv.valid = true := completes_of_next_ok h hok
  rw [exec_maxoff_of_valid hv] at h
  obtain rfl := Host.Outcome.next.inj h
  obtain ⟨hpos, hle, hden, -⟩ := hinv.cv_bounds hv
  have hmax := maxoff_le_len hinv hv
  have hnum : (BitVec.ofNat 64 (maxoff s.cv.val)).toNat = maxoff s.cv.val := toNat_ofNat_of_le (hmax.trans hle)
  have hr1 : (BitVec.ofNat 64 s.cv.den).toNat = s.cv.den := toNat_ofNat_of_le (by omega)
  obtain ⟨hbound, hatt⟩ := isOffPeakMax_maxoff s.cv.val
  rw [← hnum] at hmax hbound hatt
  exact ⟨hmax, hr1, hpos.trans_eq (hden.symm.trans hr1.symm), hbound,
    hatt.imp_left (And.imp_right BitVec.eq_of_toNat_eq)⟩

/-! ### CVRD -/

theorem errorOf_cvrd_of_not_valid (hv : s.cv.valid = false) : errorOf .cvrd s = some .notAllocated := by
  rw [errorOf, hv, if_neg Bool.false_ne_true]

theorem errorOf_cvrd_of_le (hv : s.cv.valid = true) (h : s.cv.len ≤ s.a[0].toNat) :
    errorOf .cvrd s = some .indexOutOfRange := by
  rw [errorOf, hv, State.arg_zero, if_pos rfl, if_pos h]

theorem exec_cvrd_of_entry {e : Int} (hv : s.cv.valid = true) (h : s.a[0].toNat < s.cv.len)
    (he : s.cv.val[s.a[0].toNat]? = some e) :
    exec .cvrd s = .next { completed s with
      r := #v[BitVec.ofInt 64 e, BitVec.ofNat 64 s.cv.den, BitVec.ofNat 64 s.cv.len] } := by
  rw [exec_eq_completed (i := .cvrd) ⟨hv, h⟩, effect, State.arg_zero, List.getD_eq_getElem?_getD, he,
    Option.getD_some, ← vector_set_all_three s.r]
  rfl

/-- Entry 0 of a valid vector is its length, which is its denominator (10_state.md R35). -/
theorem exec_cvrd_at_zero (hinv : s.Inv) (hv : s.cv.valid = true) (h0 : s.a[0] = 0) :
    ∃ t, exec .cvrd s = .next t ∧ t.status.err = .ok ∧ t.r[0] = t.r[1] := by
  obtain ⟨hpos, -, hden, -, hentry, -⟩ := hinv.cv_bounds hv
  have ha : s.a[0].toNat = 0 := by rw [h0]; rfl
  refine ⟨_, exec_cvrd_of_entry hv (by omega) (by rwa [ha]), rfl, ?_⟩
  rw [hden, BitVec.ofInt_natCast]
  rfl

theorem exec_cvrd_exact (hinv : s.Inv) (h : exec .cvrd s = .next t) (hok : t.status.err = .ok) :
    s.cv.val[s.a[0].toNat]? = some t.r[0].toInt ∧ |t.r[0].toInt| ≤ s.cv.len ∧ t.r[1].toNat = s.cv.den ∧
      1 ≤ t.r[1].toNat ∧ t.r[2].toNat = s.cv.len := by
  obtain ⟨hv, hlt⟩ : s.cv.valid = true ∧ s.a[0].toNat < s.cv.len := completes_of_next_ok h hok
  obtain ⟨hpos, hle, hden, hval, -, hbounds⟩ := hinv.cv_bounds hv
  have hentry := List.getElem?_eq_getElem (hlt.trans_eq hval.symm)
  rw [exec_cvrd_of_entry hv hlt hentry] at h
  obtain rfl := Host.Outcome.next.inj h
  obtain ⟨hint, habs⟩ := toInt_ofInt_of_abs_le hle (abs_le.2 (hbounds _ (List.mem_of_getElem? hentry)))
  have hlen : (BitVec.ofNat 64 s.cv.len).toNat = s.cv.len := toNat_ofNat_of_le hle
  rw [hden]
  exact ⟨hentry.trans (congrArg some hint.symm), habs, hlen, hpos.trans_eq hlen.symm, hlen⟩

end outcomes

/-! ### The statements -/

/-- Settles O48: the outcome of SIG without a sequence, past its end, and at a position of it. -/
theorem sigReadsAntipodalSample : Obligations.SigReadsAntipodalSample := by
  unfold Obligations.SigReadsAntipodalSample
  intro ba s
  refine ⟨?_, fun hb => exec_eq_raised (errorOf_sig_of_none hb), fun bits hb =>
    ⟨fun h => exec_eq_raised (errorOf_sig_of_le hb h), exec_sig_of_lt hb⟩⟩
  revert ba
  decide

/-- Settles O49: the word of NXCORR by its fields, and its outcome at each failing check and on two sequences of one
length. -/
theorem nxcorrReturnsSumAndLength : Obligations.NxcorrReturnsSumAndLength := by
  unfold Obligations.NxcorrReturnsSumAndLength
  exact fun ba bb s => ⟨decode_fieldsWord_zero .nxcorr ba bb rfl, fun h => exec_eq_raised (errorOf_nxcorr_of_none h),
    fun x y ha hb => ⟨fun h => exec_eq_raised (errorOf_nxcorr_of_length_ne ha hb h), exec_nxcorr_of_length_eq ha hb⟩⟩

/-- Settles O50: the checks of CSUM are those of NXCORR, and it returns the same sum in `R0` alone. -/
theorem csumReturnsSum : Obligations.CsumReturnsSum := by
  unfold Obligations.CsumReturnsSum
  exact fun ba bb s => ⟨decode_fieldsWord_zero .csum ba bb rfl,
    fun h => exec_eq_raised (errorOf_csum_eq_errorOf_nxcorr.trans (errorOf_nxcorr_of_none h)),
    fun x y ha hb =>
      ⟨fun h => exec_eq_raised (errorOf_csum_eq_errorOf_nxcorr.trans (errorOf_nxcorr_of_length_ne ha hb h)),
        exec_csum_of_length_eq ha hb⟩⟩

/-- Settles O51: the outcome of PACORR, whose entries are the statement's sums over all positions. -/
theorem pacorrWritesAutocorrelation : Obligations.PacorrWritesAutocorrelation := by
  unfold Obligations.PacorrWritesAutocorrelation
  intro ba s
  refine ⟨?_, fun hb => exec_eq_raised (errorOf_pacorr_of_none hb), fun x => exec_pacorr_of_some⟩
  revert ba
  decide

/-- Settles O52: the model's maximum bounds every entry past the first and is attained by one, where there is one. -/
theorem maxoffReturnsOffPeakMaximum : Obligations.MaxoffReturnsOffPeakMaximum := by
  unfold Obligations.MaxoffReturnsOffPeakMaximum
  exact fun s => ⟨by decide, fun hv => exec_eq_raised (errorOf_maxoff_of_not_valid hv),
    fun hv => ⟨maxoff s.cv.val, exec_maxoff_of_valid hv, isOffPeakMax_maxoff s.cv.val⟩, exec_maxoff_of_len_one⟩

/-- Settles O53: the outcome of CVRD at each failing check and at an entry, and entry 0 under the invariant. -/
theorem cvrdReadsEntry : Obligations.CvrdReadsEntry := by
  unfold Obligations.CvrdReadsEntry
  exact fun s => ⟨by decide, fun hv => exec_eq_raised (errorOf_cvrd_of_not_valid hv),
    fun hv => ⟨fun h => exec_eq_raised (errorOf_cvrd_of_le hv h), fun _ => exec_cvrd_of_entry hv⟩, exec_cvrd_at_zero⟩

/-- Settles O57: lengths within `2^31` bound every numerator, so that each register is read back unchanged. -/
theorem correlationResultsAreExact : Obligations.CorrelationResultsAreExact := by
  unfold Obligations.CorrelationResultsAreExact
  exact fun s hinv => ⟨fun _ _ _ _ _ _ => exec_pair_exact hinv, fun _ => exec_cvrd_exact hinv,
    fun _ => exec_maxoff_exact hinv⟩

end Sys2Proof.Machine

/-! PROOF. How a command reports its error (60_exceptions.md R202, R206, R209): one that raises changes only `STATUS`,
the code is the first failing check's, and no command reads `STATUS`. -/

namespace Sys2Proof.Machine

open Sys2Proof.Spec

/-! ### The reported code -/

/-- A command leaves in `ERR` the code of its error, OK where it has none (60_exceptions.md R201, R202). -/
theorem exec_err_eq_errorOf {i : Instr} {s t : State} (h : exec i s = .next t) :
    t.status.err = (errorOf i s).getD .ok := by
  cases he : errorOf i s with
  | none => rw [exec_status_of_no_error h he, Option.getD_none]
  | some e => rw [exec_status_of_error h he, Option.getD_some]

/-- A step that writes an illegal value to `CMD` stores it and raises `IllegalCommand` (30_encoding.md R77). -/
theorem step_write_cmd_of_not_ok {s : State} {v : Word} {rest : List HostStep}
    (hp : s.pending = .write 64 s.params.base v :: rest) (hv : ∀ i, decode v ≠ .ok i) :
    step s = .next (raised .illegalCommand { s with cmd := v, pending := rest }) :=
  (step_write_slot (sl := .cmd) hp).trans (runCommand_of_not_ok _ hv)

/-! ### A command and another `STATUS` -/

section other_status

variable (i : Instr) (s : State) (st : Status)

/-- No check reads `STATUS`. -/
@[simp] theorem errorOf_with_status : errorOf i { s with status := st } = errorOf i s := by cases i <;> rfl

/-- No effect reads or writes `STATUS`. -/
@[simp] theorem effect_with_status : effect i { s with status := st } = { effect i s with status := st } := by
  cases i <;> rfl

end other_status

/-! ### The obligations -/

/-- Settles O18: of the two ways a command ends, only raising leaves a code other than OK, and it writes `STATUS`
alone. -/
theorem raisedCommandChangesOnlyStatus : Obligations.RaisedCommandChangesOnlyStatus := by
  unfold Obligations.RaisedCommandChangesOnlyStatus
  intro i s t h herr
  rcases exec_next h with ⟨e, -, -, rfl⟩ | ⟨-, -, rfl⟩
  · rfl
  · exact absurd rfl herr

/-- Settles O20: an illegal value raises in the step itself, and a command's code is that of its error, which the check
lists name. -/
theorem reportedErrorIsFirstFailingCheck : Obligations.ReportedErrorIsFirstFailingCheck := by
  unfold Obligations.ReportedErrorIsFirstFailingCheck
  refine ⟨fun s v rest hp hv => ⟨_, step_write_cmd_of_not_ok hp hv, rfl⟩, fun i s t h => ?_⟩
  rw [firstError_eq_errorOf]
  exact exec_err_eq_errorOf h

/-- Settles O25: with another `STATUS` the command has the same error, and the same effect where it has none. -/
theorem commandsDoNotDependOnStatus : Obligations.CommandsDoNotDependOnStatus := by
  unfold Obligations.CommandsDoNotDependOnStatus
  intro i s t st h
  rcases exec_next h with ⟨e, hne, he, rfl⟩ | ⟨he, -, rfl⟩
  · rw [exec_of_error (e := e) (by rw [errorOf_with_status, he]), raiseError_next_iff]
    simp [hne]
  · rw [exec_eq, errorOf_with_status, he, effect_with_status]
    simp

end Sys2Proof.Machine

/-! PROOF. Encoding and decoding as inverses (30_encoding.md R75, R76, R88): a word of a format is its opcode and its
fields, the rows of spec/opcode_table.json are the decoder's own, and text and byte lanes stand for the same word. -/

namespace Sys2Proof

open Sys2Proof.Spec

/-! ### An assembled word by its fields -/

/-- A field placed above all bits of a word adds to it (30_encoding.md R88). -/
theorem or_field_toNat {x : Word} {lo : Nat} (b : BufIx) (hx : x.toNat < 2 ^ lo) (hlo : lo ≤ 60) :
    (x ||| BitVec.ofNat 64 b.val <<< lo).toNat = x.toNat + 2 ^ lo * b.val := by
  have hb : b.val % 2 ^ 64 = b.val := by omega
  have hpow : b.val * 2 ^ lo < 2 ^ 64 :=
    calc b.val * 2 ^ lo < 2 ^ 4 * 2 ^ lo := Nat.mul_lt_mul_of_pos_right b.isLt (Nat.two_pow_pos lo)
      _ ≤ 2 ^ 64 := by rw [← Nat.pow_add]; exact Nat.pow_le_pow_right (by decide) (by omega)
  rw [BitVec.toNat_or, BitVec.toNat_shiftLeft, BitVec.toNat_ofNat, hb, Nat.shiftLeft_eq, Nat.mod_eq_of_lt hpow,
    ← Nat.shiftLeft_eq, Nat.or_comm, ← Nat.shiftLeft_add_eq_or_of_lt hx, Nat.shiftLeft_eq]
  ring

section fields

variable (op : Op) (bd ba bb : BufIx) (u : UnitIx)

theorem assembleBuffers_eq_fieldsWord : assembleBuffers op bd ba bb = Machine.fieldsWord op bd ba bb := by
  have hop := Machine.opcode_toNat_lt op
  have hd := or_field_toNat bd hop (by decide)
  have ha := or_field_toNat (x := op.opcode ||| BitVec.ofNat 64 bd.val <<< 8) (lo := 12) ba (by omega) (by decide)
  have hb := or_field_toNat (x := op.opcode ||| BitVec.ofNat 64 bd.val <<< 8 ||| BitVec.ofNat 64 ba.val <<< 12)
    (lo := 16) bb (by omega) (by decide)
  apply BitVec.eq_of_toNat_eq
  rw [assembleBuffers, hb, ha, hd, Machine.fieldsWord_toNat]

theorem assembleBuffers_toNat : (assembleBuffers op bd ba bb).toNat =
    op.opcode.toNat + 2 ^ 8 * bd.val + 2 ^ 12 * ba.val + 2 ^ 16 * bb.val := by
  rw [assembleBuffers_eq_fieldsWord, Machine.fieldsWord_toNat]

theorem assembleUnit_toNat : (assembleUnit op u).toNat = op.opcode.toNat + 2 ^ 8 * u.val :=
  or_field_toNat (u.castLE (by decide)) (Machine.opcode_toNat_lt op) (by decide)

@[simp] theorem bufField_assembleBuffers_d : bufField (assembleBuffers op bd ba bb) 8 = bd := by
  obtain ⟨hd, -, -⟩ := Machine.bufField_fieldsWord op bd ba bb
  rw [assembleBuffers_eq_fieldsWord, hd]

@[simp] theorem bufField_assembleBuffers_a : bufField (assembleBuffers op bd ba bb) 12 = ba := by
  obtain ⟨-, ha, -⟩ := Machine.bufField_fieldsWord op bd ba bb
  rw [assembleBuffers_eq_fieldsWord, ha]

@[simp] theorem bufField_assembleBuffers_b : bufField (assembleBuffers op bd ba bb) 16 = bb := by
  obtain ⟨-, -, hb⟩ := Machine.bufField_fieldsWord op bd ba bb
  rw [assembleBuffers_eq_fieldsWord, hb]

theorem bufField_val (v : Word) (lo : Nat) : (bufField v lo).val = v.toNat / 2 ^ lo % 16 := by
  rw [bufField, Fin.val_ofNat, Nat.shiftRight_eq_div_pow]

theorem unitField_val (v : Word) : (unitField v).val = v.toNat / 2 ^ 8 % 2 := by
  rw [unitField, Fin.val_ofNat, Nat.shiftRight_eq_div_pow]

@[simp] theorem unitField_assembleUnit : unitField (assembleUnit op u) = u := by
  have hop := Machine.opcode_toNat_lt op
  apply Fin.ext
  rw [unitField_val, assembleUnit_toNat]
  omega

/-- The word of a format: `OPC` and the fields the format uses, the others 0 (30_encoding.md R72, R88). -/
def Format.word : Format → Word
  | .N => assembleBuffers op 0 0 0
  | .U => assembleUnit op u
  | .BD => assembleBuffers op bd 0 0
  | .BA => assembleBuffers op 0 ba 0
  | .BAB => assembleBuffers op 0 ba bb
  | .BDAB => assembleBuffers op bd ba bb

/-- A row's command is assembled by the row's format. -/
theorem encode_instr : encode (op.instr bd ba bb u) = op.format.word op bd ba bb u := by
  cases op <;> rfl

/-- The fields of a command's word are the command's operands. -/
theorem instr_fields_encode (i : Instr) :
    i.op.instr (bufField (encode i) 8) (bufField (encode i) 12) (bufField (encode i) 16) (unitField (encode i)) =
      i := by
  cases i with
  | maxoff | cvrd => rfl
  | bnew | bget | bset | blen | lnew | lfb | lshift | lrd | gold | spenc | spdec | sig | nxcorr | csum | pacorr =>
    simp [Instr.op, Op.instr, encode]

end fields

/-! ### A word within its format -/

/-- Nothing outside a format is nothing in the upper half: every field ends below bit 20 (30_encoding.md R72). -/
theorem lt_of_within {v : Word} {f : Format} (h : v &&& ~~~f.keep = 0) : v.toNat < 2 ^ 20 := by
  rw [and_not_keep_eq_zero_iff] at h
  refine (Machine.toNat_lt_two_pow_iff v 20).2 fun k hk => h k ?_
  cases f <;> simp [usedBits] <;> omega

theorem upperHalf_eq_zero_of_within {v : Word} {f : Format} (h : v &&& ~~~f.keep = 0) : v >>> 32 = 0 :=
  (upperHalf_eq_zero_iff v).2 ((Machine.toNat_lt_two_pow_iff v 32).1 (by have := lt_of_within h; omega))

/-- Four bits that are all 0 are the field 0. -/
theorem bufField_eq_zero {v : Word} {lo : Nat} (h : ∀ k < lo + 4, lo ≤ k → v.getLsbD k = false) :
    bufField v lo = 0 := by
  have hbits : v.toNat / 2 ^ lo % 2 ^ 4 = 0 := by
    refine Nat.eq_of_testBit_eq fun j => ?_
    rw [Nat.testBit_mod_two_pow, Nat.testBit_div_two_pow, Nat.zero_testBit]
    rcases Nat.lt_or_ge j 4 with hj | hj
    · have hbit : v.toNat.testBit (j + lo) = false := h (j + lo) (by omega) (by omega)
      rw [hbit, Bool.and_false]
    · rw [decide_eq_false (Nat.not_lt.2 hj), Bool.false_and]
  exact Fin.ext ((bufField_val v lo).trans hbits)

/-- A word with nothing outside its format is made of `OPC` and the format's fields. -/
theorem eq_word_of_within {v : Word} {op : Op} {f : Format} (hopc : opcField v = op.opcode)
    (hkeep : v &&& ~~~f.keep = 0) :
    v = f.word op (bufField v 8) (bufField v 12) (bufField v 16) (unitField v) := by
  have hlt := lt_of_within hkeep
  have hop := (opcField_eq_opcode_iff v op).1 hopc
  rw [and_not_keep_eq_zero_iff] at hkeep
  have hall : v = assembleBuffers op (bufField v 8) (bufField v 12) (bufField v 16) := by
    apply BitVec.eq_of_toNat_eq
    simp only [assembleBuffers_toNat, bufField_val]
    omega
  have hzero (lo : Nat) (h : ∀ k < lo + 4, lo ≤ k → usedBits f k = false) : bufField v lo = 0 :=
    bufField_eq_zero fun k hk hk' => hkeep k (h k hk hk')
  refine hall.trans ?_
  cases f with
  | N => rw [hzero 8 (by decide), hzero 12 (by decide), hzero 16 (by decide), Format.word]
  | U =>
    have h9 : v.toNat < 2 ^ 9 := (Machine.toNat_lt_two_pow_iff v 9).2 fun k hk =>
      hkeep k (decide_eq_false (Nat.not_lt.2 hk))
    refine hall.symm.trans (BitVec.eq_of_toNat_eq ?_)
    rw [Format.word, assembleUnit_toNat, unitField_val]
    omega
  | BD => rw [hzero 12 (by decide), hzero 16 (by decide), Format.word]
  | BA => rw [hzero 8 (by decide), hzero 16 (by decide), Format.word]
  | BAB => rw [hzero 8 (by decide), Format.word]
  | BDAB => rw [Format.word]

/-- A value that decodes to a command is that command's word. -/
theorem eq_encode_of_decode {v : Word} {i : Instr} (h : decode v = .ok i) : v = encode i := by
  obtain ⟨op, -, hopc, hkeep, rfl⟩ := (decode_ok_iff v i).1 h
  rw [encode_instr]
  exact eq_word_of_within hopc hkeep

/-! ### The rows of the opcode table -/

/-- The table of the statements is the list of rows, each with its opcode as the match and all bits but its fields as
the mask (spec/opcode_table.json). -/
theorem table_eq_rows :
    table = Op.rows.map fun op => ⟨op.mnemonic, op.opcode, ~~~op.format.keep ||| 0xFF⟩ := rfl

theorem mem_table_iff (row : TableRow) :
    row ∈ table ↔ ∃ op : Op, (⟨op.mnemonic, op.opcode, ~~~op.format.keep ||| 0xFF⟩ : TableRow) = row := by
  simp [table_eq_rows, Op.mem_rows]

/-- A value fits a row's mask and match exactly when its `OPC` is the row's and it has nothing outside the row's format
(30_encoding.md R76). -/
theorem fits_row_iff (v : Word) (op : Op) :
    v &&& (~~~op.format.keep ||| 0xFF) = op.opcode ↔ opcField v = op.opcode ∧ v &&& ~~~op.format.keep = 0 := by
  obtain ⟨hmask, hopc⟩ : (~~~op.format.keep ||| 0xFF) &&& 0xFF = 0xFF ∧ op.opcode &&& 0xFF = op.opcode := by
    cases op <;> decide
  obtain ⟨hmask', hkeep⟩ : (~~~op.format.keep ||| 0xFF) &&& ~~~op.format.keep = ~~~op.format.keep ∧
      op.opcode &&& ~~~op.format.keep = 0 := by
    cases op <;> decide
  constructor
  · intro h
    constructor
    · rw [opcField, ← hmask, ← BitVec.and_assoc, h, hopc]
    · rw [← hmask', ← BitVec.and_assoc, h, hkeep]
  · rintro ⟨ho, hk⟩
    rw [BitVec.and_or_distrib_left, hk, ← opcField, ho]
    exact BitVec.zero_or

/-- The word of a command fits its row (the family `Laws.TableRow`, gathered over all commands). -/
theorem tableRow_statement (i : Instr) : Laws.TableRow.Statement i := by
  cases i with
  | bnew bd => exact Laws.TableRow.bnew bd
  | bget ba => exact Laws.TableRow.bget ba
  | bset bd => exact Laws.TableRow.bset bd
  | blen ba => exact Laws.TableRow.blen ba
  | lnew u => exact Laws.TableRow.lnew u
  | lfb u => exact Laws.TableRow.lfb u
  | lshift u => exact Laws.TableRow.lshift u
  | lrd u => exact Laws.TableRow.lrd u
  | gold bd => exact Laws.TableRow.gold bd
  | spenc bd ba bb => exact Laws.TableRow.spenc bd ba bb
  | spdec bd ba bb => exact Laws.TableRow.spdec bd ba bb
  | sig ba => exact Laws.TableRow.sig ba
  | nxcorr ba bb => exact Laws.TableRow.nxcorr ba bb
  | csum ba bb => exact Laws.TableRow.csum ba bb
  | pacorr ba => exact Laws.TableRow.pacorr ba
  | maxoff => exact Laws.TableRow.maxoff
  | cvrd => exact Laws.TableRow.cvrd

@[simp] theorem decode_encode (i : Instr) : decode (encode i) = .ok i := by
  obtain ⟨hfits, -⟩ := tableRow_statement i
  obtain ⟨hopc, hkeep⟩ := (fits_row_iff _ _).1 hfits
  exact (decode_ok_iff _ _).2 ⟨i.op, upperHalf_eq_zero_of_within hkeep, hopc, hkeep, (instr_fields_encode i).symm⟩

/-- A value decodes to a command of a row exactly when it fits the row. -/
theorem exists_decode_op_iff (v : Word) (op : Op) :
    (∃ i, decode v = .ok i ∧ i.op = op) ↔ v &&& (~~~op.format.keep ||| 0xFF) = op.opcode := by
  rw [fits_row_iff]
  constructor
  · rintro ⟨i, hi, rfl⟩
    obtain ⟨op, -, hopc, hkeep, rfl⟩ := (decode_ok_iff v i).1 hi
    rw [op_instr_op]
    exact ⟨hopc, hkeep⟩
  · rintro ⟨hopc, hkeep⟩
    exact ⟨_, (decode_ok_iff v _).2 ⟨op, upperHalf_eq_zero_of_within hkeep, hopc, hkeep, rfl⟩, op_instr_op ..⟩

/-! ### Assembler text -/

/-- The operands a format writes, in the order of its text (30_encoding.md R88). -/
def Format.operands (bd ba bb : BufIx) (u : UnitIx) : Format → List Operand
  | .N => []
  | .U => [.unit u]
  | .BD => [.buf bd]
  | .BA => [.buf ba]
  | .BAB => [.buf ba, .buf bb]
  | .BDAB => [.buf bd, .buf ba, .buf bb]

theorem operands_instr (op : Op) (bd ba bb : BufIx) (u : UnitIx) :
    (op.instr bd ba bb u).operands = op.format.operands bd ba bb u := by
  cases op <;> rfl

/-- The row a mnemonic selects is the one it is the mnemonic of. -/
theorem find_mnemonic (op : Op) : (Op.rows.find? fun op' => op'.mnemonic == op.mnemonic) = some op := by
  cases op <;> rfl

theorem withOperands_operands (i : Instr) : i.op.withOperands i.operands = some i := by
  cases i <;> rfl

/-- Operands that fit a row are the operands of the row's command. -/
theorem op_operands_of_withOperands {op : Op} {xs : List Operand} {i : Instr} (h : op.withOperands xs = some i) :
    i.op = op ∧ i.operands = xs := by
  unfold Op.withOperands at h
  split at h <;> cases h <;> rename_i hf <;> exact ⟨op_instr_op .., by rw [operands_instr, hf]; rfl⟩

theorem assemble_eq_some_iff (m : String) (xs : List Operand) (w : Word) :
    assemble m xs = some w ↔ ∃ i : Instr, i.op.mnemonic = m ∧ i.operands = xs ∧ encode i = w := by
  constructor
  · intro h
    simp only [assemble, Option.bind_eq_bind, Option.bind_eq_some_iff, Option.pure_def, Option.some.injEq] at h
    obtain ⟨op, hop, i, hi, hw⟩ := h
    obtain ⟨rfl, hxs⟩ := op_operands_of_withOperands hi
    exact ⟨i, by simpa using List.find?_some hop, hxs, hw⟩
  · rintro ⟨i, rfl, rfl, rfl⟩
    simp [assemble, find_mnemonic, withOperands_operands]

/-! ### Byte lanes -/

theorem lanes_length (v : Word) : (lanes v).length = 8 := rfl

theorem lanes_getElem? (v : Word) (k : Fin 8) : (lanes v)[k.val]? = some (lane v k) := by
  fin_cases k <;> rfl

theorem lane_getLsbD (v : Word) (k : Fin 8) {j : Nat} (hj : j < 8) :
    (lane v k).getLsbD j = v.getLsbD (8 * k.val + j) := by
  rw [lane, BitVec.getLsbD_extractLsb', decide_eq_true hj, Bool.true_and]

theorem decodeBytes_lanes (v : Word) : decodeBytes (lanes v) = decode v := by
  rw [decodeBytes, if_pos (lanes_length v), ofNat_lanesNat_lanes]

/-! ### The statements -/

/-- Settles O1: the word of a command fits its row, and its fields are the command's operands. -/
theorem encodeThenDecode : Obligations.EncodeThenDecode := by
  unfold Obligations.EncodeThenDecode
  exact decode_encode

/-- Settles O2: a value that passes the decoder has nothing outside its format, so that `OPC` and the fields are all of
it. -/
theorem decodedValueIsItsEncoding : Obligations.DecodedValueIsItsEncoding := by
  unfold Obligations.DecodedValueIsItsEncoding
  exact fun _ _ => eq_encode_of_decode

/-- Settles O3: the rows of the table are the decoder's rows, and fitting one is passing the decoder's checks. -/
theorem decodeFollowsOpcodeTable : Obligations.DecodeFollowsOpcodeTable := by
  unfold Obligations.DecodeFollowsOpcodeTable
  refine fun v => ⟨fun i hi => ?_, fun row hrow hfits => ?_⟩
  · exact ⟨_, (mem_table_iff _).2 ⟨i.op, rfl⟩, rfl, (exists_decode_op_iff v i.op).1 ⟨i, hi, rfl⟩⟩
  · obtain ⟨op, rfl⟩ := (mem_table_iff row).1 hrow
    obtain ⟨i, hi, rfl⟩ := (exists_decode_op_iff v op).2 hfits
    exact ⟨i, hi, rfl⟩

/-- Settles O7: a mnemonic and fitting operands name one command, whose word decodes to it. -/
theorem assembledTextIsEncoding : Obligations.AssembledTextIsEncoding := by
  unfold Obligations.AssembledTextIsEncoding
  refine ⟨fun i => (assemble_eq_some_iff _ _ _).2 ⟨i, rfl, rfl, rfl⟩, fun m xs w h => ?_⟩
  obtain ⟨i, hm, hxs, rfl⟩ := (assemble_eq_some_iff _ _ _).1 h
  exact ⟨i, decode_encode i, hm, hxs⟩

/-- Settles O8: each lane is its eight bits of the register, and the lanes together hold its value. -/
theorem byteLanesAreLittleEndian : Obligations.ByteLanesAreLittleEndian := by
  unfold Obligations.ByteLanesAreLittleEndian
  refine fun v => ⟨fun k j hj => ?_, lanes_length v, decodeBytes_lanes v⟩
  rw [lanes_getElem?, Option.map_some, lane_getLsbD v k hj]

end Sys2Proof

/-! PROOF. The invariant of the whole block (00_scope.md R7, 10_state.md R25, R30, R33, R35): the reset state holds it,
the effect of every command that completes keeps it, and so does every step. -/

namespace Sys2Proof.Machine

/-! ### Parts of the invariant, and reset -/

theorem State.Inv.params_wf {s : State} (h : s.Inv) : s.params.wf = true := h.1

theorem State.Inv.unit {s : State} (h : s.Inv) (u : UnitIx) : LfsrUnit.Inv s.lfsr[u] := h.2.2.1 u

theorem blockReset_inv {s : State} (h : s.params.wf = true) : (blockReset s).Inv := by
  refine ⟨h, fun b => ?_, fun u => ?_, ?_, fun hne => absurd rfl hne⟩
  · have hb : (blockReset s).buf[b] = none := Vector.getElem_replicate _
    rw [hb]
    nofun
  · have hu : (blockReset s).lfsr[u] = LfsrUnit.reset := Vector.getElem_replicate _
    rw [hu]
    exact ⟨nofun, fun _ => ⟨rfl, rfl, rfl⟩⟩
  · exact ⟨nofun, fun _ => ⟨rfl, rfl, rfl⟩⟩

theorem blockReset_reset : blockReset State.reset = State.reset := rfl

/-! ### Units that LNEW and GOLD configure -/

theorem within_of_badTaps_eq_false {w : Nat} {taps : Word} (h : badTaps w taps = false) : taps &&& ~~~mask w = 0 :=
  (and_not_mask_eq_zero_iff taps w).2 ((badTaps_eq_false_iff w taps).1 h)

theorem within_of_badSeed_eq_false {w : Nat} {seed : Word} (h : badSeed w seed = false) : seed &&& ~~~mask w = 0 := by
  obtain ⟨-, hlt⟩ := (badSeed_eq_false_iff w seed).1 h
  exact (and_not_mask_eq_zero_iff seed w).2 ((toNat_lt_two_pow_iff seed w).1 hlt)

/-- A pair that passes its checks is a legal seed and a legal mask (42_gold.md R141). -/
theorem legal_of_pairError_eq_none {n : Nat} {taps seed : Word} (h : pairError n taps seed = none) :
    badSeed n seed = false ∧ badTaps n taps = false := by
  unfold pairError at h
  split_ifs at h with hseed htaps
  exact ⟨Bool.eq_false_of_not_eq_true hseed, Bool.eq_false_of_not_eq_true htaps⟩

theorem LfsrUnit.inv_of_within {st taps : Word} {w : Nat} (h1 : 1 ≤ w) (h64 : w ≤ 64) (htaps : taps &&& ~~~mask w = 0)
    (hst : st &&& ~~~mask w = 0) : LfsrUnit.Inv { cfg := true, state := st, taps := taps, width := w } :=
  ⟨fun _ => ⟨h1, h64, htaps, hst⟩, nofun⟩

/-! ### Lengths that GOLD and PACORR write -/

/-- Every width GOLD accepts gives a code that fits a buffer (00_scope.md R7). -/
theorem Params.gold_length_le {p : Params} (h : p.wf = true) {n : Nat} (hn : n ≤ p.goldNMax) :
    2 ^ n - 1 ≤ p.maxLen := by
  simp only [Params.wf, Bool.and_eq_true, decide_eq_true_eq] at h
  obtain ⟨⟨⟨-, hmax⟩, -⟩, -⟩ := h
  exact (Nat.sub_le_sub_right (Nat.pow_le_pow_right (by decide) hn) 1).trans hmax

/-- The vector PACORR makes from a sequence has the form of 10_state.md R35. -/
theorem CorrVector.inv_acorr {maxLen : Nat} {x : BitSeq} (h1 : 1 ≤ x.length) (h2 : x.length ≤ maxLen) :
    CorrVector.Inv maxLen
      { valid := true, len := x.length, den := x.length, val := (List.range x.length).map (acorr x) } := by
  refine ⟨fun _ => ⟨h1, h2, rfl, by simp, ?_, fun y hy => ?_⟩, nofun⟩
  · rw [List.getElem?_map, List.getElem?_range h1, Option.map_some, acorr_zero]
  · obtain ⟨k, -, rfl⟩ := List.mem_map.1 hy
    exact acorr_bounds x k

/-! ### The effect of a command -/

/-- GOLD leaves two legal units and a code of `2^n - 1` bits (42_gold.md R141, R142). -/
theorem State.Inv.goldEffect {s : State} (h : s.Inv) {bd : BufIx} (hc : Completes (.gold bd) s) :
    (goldEffect bd (s.arg 0).toNat s).Inv := by
  obtain ⟨h1, h64, hmax, hp1, hp2⟩ := hc
  obtain ⟨hs1, ht1⟩ := legal_of_pairError_eq_none hp1
  obtain ⟨hs2, ht2⟩ := legal_of_pairError_eq_none hp2
  obtain ⟨hx, hy⟩ := goldLoop_within (s.arg 0).toNat (s.arg 1) (s.arg 3) (2 ^ (s.arg 0).toNat - 1) _ _
    (within_of_badSeed_eq_false hs1) (within_of_badSeed_eq_false hs2)
  have hlen := goldLoop_length (s.arg 0).toNat (s.arg 1) (s.arg 3) (2 ^ (s.arg 0).toNat - 1) (s.arg 2) (s.arg 4)
  have hlt : (s.arg 0).toNat < 2 ^ (s.arg 0).toNat := Nat.lt_two_pow_self
  refine State.Inv.bufAlloc (State.Inv.setUnit (State.Inv.setUnit h 0 ?_) 1 ?_) bd ?_ ?_
  · exact LfsrUnit.inv_of_within h1 h64 (within_of_badTaps_eq_false ht1) hx
  · exact LfsrUnit.inv_of_within h1 h64 (within_of_badTaps_eq_false ht2) hy
  · exact (by omega : 1 ≤ 2 ^ (s.arg 0).toNat - 1).trans_eq hlen.symm
  · exact hlen.trans_le (Params.gold_length_le h.params_wf hmax)

/-- The writes of a command whose condition holds keep the invariant. -/
theorem State.Inv.effect {s : State} (h : s.Inv) {i : Instr} (hc : Completes i s) : (effect i s).Inv := by
  cases i with
  | bnew bd =>
    obtain ⟨hpos, hle⟩ := hc
    exact h.bufAlloc bd (by rw [List.length_replicate]; omega) (by rw [List.length_replicate]; omega)
  | bset bd =>
    obtain ⟨hb, -⟩ := hc
    obtain ⟨h1, h2⟩ := h.seqAt hb
    exact h.bufAlloc bd (by rwa [List.length_set]) (by rwa [List.length_set])
  | lnew u =>
    obtain ⟨h1, h64, hseed, htaps⟩ := hc
    exact h.setUnit u
      (LfsrUnit.inv_of_within h1 h64 (within_of_badTaps_eq_false htaps) (within_of_badSeed_eq_false hseed))
  | lshift u => exact (h.setUnit u ((h.unit u).shifted hc)).setRes _ _
  | gold bd => exact h.goldEffect hc
  | spenc bd ba bb | spdec bd ba bb =>
    obtain ⟨ha, -⟩ := hc
    obtain ⟨h1, h2⟩ := h.seqAt ha
    exact h.bufAlloc bd (by rwa [spread_length]) (by rwa [spread_length])
  | pacorr ba =>
    obtain ⟨h1, h2⟩ := h.seqAt hc
    exact h.setCv (CorrVector.inv_acorr h1 h2)
  | bget | blen | lfb | sig | csum => exact h.setRes _ _
  | nxcorr => exact (h.setRes _ _).setRes _ _
  | lrd | maxoff | cvrd => exact ((h.setRes _ _).setRes _ _).setRes _ _

theorem exec_inv {i : Instr} {s t : State} (hs : s.Inv) (h : exec i s = .next t) : t.Inv := by
  rcases exec_next h with ⟨e, -, -, rfl⟩ | ⟨-, hc, rfl⟩
  · exact hs.raised e
  · exact (hs.effect hc).completed

/-! ### The statements -/

/-- Settles O13: the parameters of the reset state are legal, and a reset leaves every store empty. -/
theorem resetHoldsInvariant : Obligations.ResetHoldsInvariant := by
  unfold Obligations.ResetHoldsInvariant
  rw [← blockReset_reset]
  exact blockReset_inv (by decide)

/-- Settles O14: of the things a step can do, only a command and a reset write the stores, and both keep the
invariant. -/
theorem stepKeepsInvariant : Obligations.StepKeepsInvariant := by
  unfold Obligations.StepKeepsInvariant
  intro s t hs h
  rcases step_next h with ⟨-, rfl⟩ | ⟨x, rest, -, hx⟩
  · exact hs
  rcases hx with ⟨_, _, -, -, rfl⟩ | ⟨_, _, _, -, -, rfl⟩ | ⟨_, _, -, rfl⟩ | ⟨v, i, -, -, hexec⟩ | ⟨v, _, -, -, rfl⟩ |
    ⟨-, rfl⟩
  · exact hs
  · exact hs
  · exact hs
  · exact exec_inv (s := { s with cmd := v, pending := rest }) hs hexec
  · exact hs.raised .illegalCommand
  · exact blockReset_inv hs.params_wf

end Sys2Proof.Machine

/-! PROOF. What commands and steps leave as it was (10_state.md R22 to R26, 60_exceptions.md R203): every command
answers a next state, writes only the registers and the storage its rule names, and reads only the arguments it names;
and what each kind of step keeps. -/

namespace Sys2Proof.Machine

open Sys2Proof.Spec

/-- A vector read after one entry is set is unchanged, or is read at that entry. -/
theorem vector_get_set_or_eq {α : Type} {n : Nat} (v : Vector α n) (i j : Fin n) (x : α) :
    (v.set i x)[j] = v[j] ∨ i = j := by
  by_cases h : i = j
  · exact .inr h
  · exact .inl (vector_get_set_ne v x h)

section effects

variable (i : Instr) (s : State)

/-! ### Registers and storage that an effect writes -/

/-- A command writes only the result registers its row names (30_encoding.md R75). -/
theorem effect_r_get {k : Fin 3} (hk : k ∉ writes i) : (effect i s).r[k] = s.r[k] := by
  cases i with
  | bget | blen | lfb | lshift | sig | csum =>
    exact vector_get_set_ne _ _ (Ne.symm (by simpa [writes] using hk))
  | nxcorr =>
    obtain ⟨h0, h1⟩ : k ≠ 0 ∧ k ≠ 1 := by simpa [writes] using hk
    exact (vector_get_set_ne _ _ h1.symm).trans (vector_get_set_ne _ _ h0.symm)
  | lrd | maxoff | cvrd => exact absurd ((by decide : ∀ k : Fin 3, k ∈ [0, 1, 2]) k) hk
  | bnew | bset | lnew | gold | spenc | spdec | pacorr => rfl

/-- A buffer is written only by a command that names it as its destination (10_state.md R30). -/
theorem effect_buf_get (b : BufIx) : (effect i s).buf[b] = s.buf[b] ∨ i = .bnew b ∨ i = .bset b ∨ i = .gold b ∨
    ∃ ba bb, i = .spenc b ba bb ∨ i = .spdec b ba bb := by
  cases i with
  | bnew bd | bset bd | gold bd => exact (vector_get_set_or_eq _ bd b _).imp_right (by rintro rfl; simp)
  | spenc bd ba bb | spdec bd ba bb => exact (vector_get_set_or_eq _ bd b _).imp_right (by rintro rfl; simp)
  | bget | blen | lnew | lfb | lshift | lrd | sig | nxcorr | csum | pacorr | maxoff | cvrd => exact .inl rfl

/-- A unit is written only by LNEW or LSHIFT of it, or by GOLD (10_state.md R33). -/
theorem effect_lfsr_get (u : UnitIx) : (effect i s).lfsr[u] = s.lfsr[u] ∨ i = .lnew u ∨ i = .lshift u ∨
    ∃ bd, i = .gold bd := by
  cases i with
  | lnew u' | lshift u' => exact (vector_get_set_or_eq _ u' u _).imp_right (by rintro rfl; simp)
  | gold bd => exact .inr (.inr (.inr ⟨bd, rfl⟩))
  | bnew | bget | bset | blen | lfb | lrd | spenc | spdec | sig | nxcorr | csum | pacorr | maxoff | cvrd =>
    exact .inl rfl

/-- Only PACORR writes the correlation vector (10_state.md R34). -/
theorem effect_cv : (effect i s).cv = s.cv ∨ ∃ ba, i = .pacorr ba := by
  cases i with
  | pacorr ba => exact .inr ⟨ba, rfl⟩
  | bnew | bget | bset | blen | lnew | lfb | lshift | lrd | gold | spenc | spdec | sig | nxcorr | csum | maxoff
  | cvrd => exact .inl rfl

/-! ### Arguments that a command reads -/

variable {i s} {a' : Vector Word 5} (h : ∀ k ∈ reads i, a'[k] = s.a[k])

include h

/-- No check and no effect reads an argument register that the command's row does not name (30_encoding.md R75). -/
theorem errorOf_effect_with_a :
    errorOf i { s with a := a' } = errorOf i s ∧ effect i { s with a := a' } = { effect i s with a := a' } := by
  have harg : ∀ k ∈ reads i, ({ s with a := a' } : State).arg k = s.arg k := h
  cases i with
  | bnew | bget | sig | cvrd =>
    obtain ⟨h0, -⟩ := List.forall_mem_cons.1 harg
    exact ⟨by simp only [errorOf, h0] <;> rfl, by simp only [effect, h0]; rfl⟩
  | bset =>
    obtain ⟨h0, h1, -⟩ := List.forall_mem_cons.1 harg |>.imp_right List.forall_mem_cons.1
    exact ⟨by simp only [errorOf, h0, h1]; rfl, by simp only [effect, h0, h1]; rfl⟩
  | lnew =>
    obtain ⟨h0, h1, h2⟩ : _ ∧ _ ∧ _ := by simpa only [reads, List.forall_mem_cons, List.forall_mem_singleton] using harg
    exact ⟨by simp only [errorOf, h0, h1, h2], by simp only [effect, h0, h1, h2]; rfl⟩
  | gold =>
    obtain ⟨h0, h1, h2, h3, h4⟩ : _ ∧ _ ∧ _ ∧ _ ∧ _ := by
      simpa only [reads, List.forall_mem_cons, List.forall_mem_singleton] using harg
    exact ⟨by simp only [errorOf, h0, h1, h2, h3, h4], by simp only [effect, goldEffect, h0, h1, h2, h3, h4]; rfl⟩
  | blen | lfb | lshift | lrd | spenc | spdec | nxcorr | csum | pacorr | maxoff => exact ⟨rfl, rfl⟩

end effects

/-! ### What a command keeps -/

/-- No command faults or is refused (60_exceptions.md R203). -/
theorem exists_exec_next (i : Instr) (s : State) : ∃ t, exec i s = .next t := by
  rcases exec_ends i s with ⟨e, -, -, hx⟩ | ⟨-, -, hx⟩
  · exact ⟨_, hx⟩
  · exact ⟨_, hx⟩

/-- A command keeps the registers the host writes, the parameters, and the host's own fields. -/
theorem exec_frame {i : Instr} {s t : State} (h : exec i s = .next t) :
    t.a = s.a ∧ t.cmd = s.cmd ∧ t.params = s.params ∧ t.pending = s.pending ∧ t.observed = s.observed := by
  rcases exec_next h with ⟨e, -, -, rfl⟩ | ⟨-, -, rfl⟩
  · exact ⟨rfl, rfl, rfl, rfl, rfl⟩
  · exact ⟨effect_a i s, effect_cmd i s, effect_params i s, effect_pending i s, effect_observed i s⟩

/-- A command leaves `FAULT` at 1 if it was 1 (10_state.md R25). -/
theorem exec_fault {i : Instr} {s t : State} (h : exec i s = .next t) (hf : s.status.fault = true) :
    t.status.fault = true := by
  cases he : errorOf i s with
  | none => rw [exec_status_of_no_error h he, hf]
  | some e => rw [exec_status_of_error h he]

/-! ### The statements -/

/-- Settles O16: both ends of a command are next states. -/
theorem everyCommandAnswersNextState : Obligations.EveryCommandAnswersNextState := by
  unfold Obligations.EveryCommandAnswersNextState
  exact exists_exec_next

/-- Settles O22: raising writes `STATUS` alone, and no effect reaches a register the host writes. -/
theorem commandsKeepHostWrittenRegisters : Obligations.CommandsKeepHostWrittenRegisters := by
  unfold Obligations.CommandsKeepHostWrittenRegisters
  exact fun _ _ _ => exec_frame

/-- Settles O24: raising writes no result register, and an effect only those of its row. -/
theorem onlyNamedResultRegistersChange : Obligations.OnlyNamedResultRegistersChange := by
  unfold Obligations.OnlyNamedResultRegistersChange
  intro i s t h k hk
  rcases exec_next h with ⟨e, -, -, rfl⟩ | ⟨-, -, rfl⟩
  · rfl
  · exact effect_r_get i s (hk.resolve_right fun hne => hne rfl)

/-- Settles O26: with other values in unnamed argument registers the command has the same error, and the same effect
where it has none. -/
theorem unnamedArgumentsAreNotRead : Obligations.UnnamedArgumentsAreNotRead := by
  unfold Obligations.UnnamedArgumentsAreNotRead
  intro i s t a' ha h
  obtain ⟨herror, heffect⟩ := errorOf_effect_with_a ha
  rcases exec_next h with ⟨e, -, he, rfl⟩ | ⟨he, -, rfl⟩
  · exact exec_of_error (herror.trans he)
  · rw [exec_eq, herror, he, heffect]
    rfl

/-- Settles O27: raising writes no storage, and an effect only that of its destination. -/
theorem storageIsChangedOnlyByItsCommands : Obligations.StorageIsChangedOnlyByItsCommands := by
  unfold Obligations.StorageIsChangedOnlyByItsCommands
  intro i s t h
  rcases exec_next h with ⟨e, -, -, rfl⟩ | ⟨-, -, rfl⟩
  · exact ⟨fun _ => .inl rfl, fun _ => .inl rfl, .inl rfl⟩
  · exact ⟨effect_buf_get i s, effect_lfsr_get i s, effect_cv i s⟩

/-- Settles O21: of the steps that are no reset, only a write of `CMD` writes `STATUS`, and it never clears `FAULT`. -/
theorem faultIsClearedOnlyByReset : Obligations.FaultIsClearedOnlyByReset := by
  unfold Obligations.FaultIsClearedOnlyByReset
  intro s t h hf hreset
  rcases step_next h with ⟨-, rfl⟩ | ⟨x, rest, hp, hx⟩
  · exact hf
  rcases hx with ⟨_, _, -, -, rfl⟩ | ⟨_, _, _, -, -, rfl⟩ | ⟨_, _, -, rfl⟩ | ⟨v, i, -, -, hexec⟩ | ⟨_, _, -, -, rfl⟩ |
    ⟨rfl, -⟩
  · exact hf
  · exact hf
  · exact hf
  · exact exec_fault (s := { s with cmd := v, pending := rest }) hexec hf
  · rfl
  · exact absurd (congrArg List.head? hp) hreset

/-- Settles O23: a read, an argument write and an ignored write leave all storage, a write of `CMD` keeps the argument
registers, and each takes itself off the host's list. -/
theorem onlyCommandsAndResetChangeTheBlock : Obligations.OnlyCommandsAndResetChangeTheBlock := by
  unfold Obligations.OnlyCommandsAndResetChangeTheBlock
  intro s t h hreset
  rcases step_next h with ⟨hp, rfl⟩ | ⟨x, rest, hp, hx⟩
  · exact ⟨fun _ => ⟨rfl, rfl, rfl, rfl, rfl, rfl⟩, rfl, by rw [hp, List.tail_nil], fun _ => .inl rfl⟩
  rw [hp, List.head?_cons] at hreset ⊢
  rcases hx with ⟨_, _, -, -, rfl⟩ | ⟨_, j, v, rfl, rfl, rfl⟩ | ⟨_, _, -, rfl⟩ | ⟨v, i, rfl, -, hexec⟩ |
    ⟨v, _, rfl, -, rfl⟩ | ⟨rfl, -⟩
  · exact ⟨fun _ => ⟨rfl, rfl, rfl, rfl, rfl, rfl⟩, rfl, rfl, fun _ => .inl rfl⟩
  · refine ⟨fun _ => ⟨rfl, rfl, rfl, rfl, rfl, rfl⟩, rfl, rfl, fun k => (vector_get_set_or_eq s.a j k v).imp_right ?_⟩
    rintro rfl
    exact ⟨v, rfl, vector_get_set_self _ _ _⟩
  · exact ⟨fun _ => ⟨rfl, rfl, rfl, rfl, rfl, rfl⟩, rfl, rfl, fun _ => .inl rfl⟩
  · obtain ⟨ha, -, hparams, hpending, -⟩ := exec_frame hexec
    exact ⟨fun hcmd => absurd rfl (hcmd v), hparams, hpending, fun k => .inl (by rw [ha])⟩
  · exact ⟨fun hcmd => absurd rfl (hcmd v), rfl, rfl, fun _ => .inl rfl⟩
  · exact absurd rfl hreset

end Sys2Proof.Machine

/-! PROOF. The window and the host's program (20_memory.md R55, R56, 10_state.md R27, R38, 30_encoding.md R90): the
fields of `CAP`, what an access without a meaning answers, a reset and an idle step, and the run of a supported program. -/

namespace Sys2Proof.Machine

open Sys2Proof.Spec

/-! ### `CAP` -/

/-- The fields of `CAP` do not reach into each other, and its value fits the register (10_state.md R27). -/
theorem capWord_toNat {p : Params} (hn : p.goldNMax ≤ 31) (hmax : p.maxLen ≤ 2 ^ 31) :
    (capWord p).toNat = 16 + 2 ^ 8 * p.goldNMax + 2 ^ 16 * 1 + 2 ^ 32 * p.maxLen := by
  rw [capWord, BitVec.toNat_ofNat]
  exact Nat.mod_eq_of_lt (by simp only [Config.nbuf, Config.version]; omega)

/-! ### Accesses that have no meaning -/

section access

variable {s : State} {bits addr : Nat} (k : Slot → Result)

theorem access_of_width_ne (h : bits ≠ 64) : access bits addr s k = .refused (.unsupportedWidth bits) := by
  rw [access, if_pos h]

/-- A 64-bit access inside the window at no slot's offset is refused (20_memory.md R56). -/
theorem access_of_misaligned (hlo : s.params.base ≤ addr) (hhi : addr < s.params.base + 128)
    (h : (addr - s.params.base) % 8 ≠ 0) : access 64 addr s k = .refused (.misalignedAccess addr) := by
  have hin : inWindow s.params addr = true := by simp [inWindow, hlo, hhi]
  have hslot : slotAt (addr - s.params.base) = none := by
    rw [← Option.not_isSome_iff_eq_none, slotAt_isSome_iff _ (by omega)]
    exact h
  rw [access, if_neg (by decide), if_neg (not_not.2 hin), hslot]

end access

/-- A step with a read or a write waiting is the access it makes. -/
theorem exists_step_eq_access {s : State} {h : HostStep} {bits addr : Nat} {v : Word} {rest : List HostStep}
    (hp : s.pending = h :: rest) (hh : h = .read bits addr ∨ h = .write bits addr v) :
    ∃ k, step s = access bits addr { s with pending := rest } k := by
  rw [step_cons hp]
  rcases hh with rfl | rfl
  · exact ⟨_, rfl⟩
  · exact ⟨_, rfl⟩

/-! ### Reset -/

theorem step_reset {s : State} {rest : List HostStep} (hp : s.pending = .reset :: rest) :
    step s = .next (blockReset { s with pending := rest }) :=
  step_cons hp

theorem afterReset_blockReset (s : State) : AfterReset (blockReset s) := ⟨rfl, rfl, rfl, rfl, rfl, rfl, rfl⟩

/-! ### Supported steps -/

theorem step_write_cmd {s : State} {v : Word} {i : Instr} {rest : List HostStep}
    (hp : s.pending = .write 64 s.params.base v :: rest) (hv : decode v = .ok i) :
    step s = exec i { s with cmd := v, pending := rest } :=
  (step_write_slot (sl := .cmd) hp).trans (runCommand_of_ok _ hv)

/-- A write of any value to any slot answers a next state, with the parameters and the host's list as they were. -/
theorem exists_hostWrite_next (sl : Slot) (v : Word) (s : State) :
    ∃ t, hostWrite sl v s = .next t ∧ t.params = s.params ∧ t.pending = s.pending := by
  cases sl with
  | cmd =>
    by_cases hv : ∃ i, decode v = .ok i
    · obtain ⟨i, hi⟩ := hv
      obtain ⟨t, ht⟩ := exists_exec_next i { s with cmd := v }
      obtain ⟨-, -, hparams, hpending, -⟩ := exec_frame ht
      exact ⟨t, (runCommand_of_ok s hi).trans ht, hparams, hpending⟩
    · exact ⟨_, runCommand_of_not_ok s fun i hi => hv ⟨i, hi⟩, rfl, rfl⟩
  | arg | status | res | cap | reserved => exact ⟨_, rfl, rfl, rfl⟩

/-- A supported step is performed, is taken off the host's list, and keeps the parameters. -/
theorem exists_step_next_of_wf {s : State} {h : HostStep} {rest : List HostStep} (hp : s.pending = h :: rest)
    (hw : h.wf s.params = true) : ∃ t, step s = .next t ∧ t.params = s.params ∧ t.pending = rest := by
  rw [step_cons hp]
  cases h with
  | reset => exact ⟨_, rfl, rfl, rfl⟩
  | read bits addr =>
    obtain ⟨sl, hsl⟩ := access_of_wf (s := { s with pending := rest })
      (fun sl => hostRead sl { s with pending := rest }) hw
    exact ⟨_, hsl, rfl, rfl⟩
  | write bits addr v =>
    obtain ⟨sl, hsl⟩ := access_of_wf (s := { s with pending := rest })
      (fun sl => hostWrite sl v { s with pending := rest }) hw
    obtain ⟨t, ht, hparams, hpending⟩ := exists_hostWrite_next sl v { s with pending := rest }
    exact ⟨t, hsl.trans ht, hparams, hpending⟩

/-- One step for each of the supported steps waiting leads to the end of the list. -/
theorem exists_run_next_of_wf (prog : List HostStep) (s : State) (hp : s.pending = prog)
    (hw : programWf s.params prog = true) :
    ∃ t, Host.Core.run Sys2Proof.core prog.length s = .next t ∧ t.pending = [] ∧ t.params = s.params := by
  induction prog generalizing s with
  | nil => exact ⟨s, rfl, hp, rfl⟩
  | cons h rest ih =>
    obtain ⟨hh, hrest⟩ : h.wf s.params = true ∧ programWf s.params rest = true := by
      simpa only [programWf, List.all_cons, Bool.and_eq_true] using hw
    obtain ⟨t, ht, hparams, hpending⟩ := exists_step_next_of_wf hp hh
    obtain ⟨t', ht', hpending', hparams'⟩ := ih t hpending (by rwa [hparams])
    exact ⟨t', (core_run_succ ht _).trans ht', hpending', hparams'.trans hparams⟩

/-! ### The statements -/

/-- Settles O10: under the bounds of the parameters the sum of the fields is the register's value. -/
theorem capHoldsParameters : Obligations.CapHoldsParameters := by
  unfold Obligations.CapHoldsParameters
  refine ⟨fun p hp => ?_, by decide⟩
  simp only [Params.wf, Bool.and_eq_true, decide_eq_true_eq] at hp
  obtain ⟨⟨⟨⟨-, hn⟩, -⟩, -⟩, hmax⟩ := hp
  rw [capWord_toNat hn hmax]
  omega

/-- Settles O11: the width is checked first, and an offset that is no multiple of 8 has no slot. -/
theorem unsupportedAccessIsRefused : Obligations.UnsupportedAccessIsRefused := by
  unfold Obligations.UnsupportedAccessIsRefused
  intro s h bits addr v rest hp hh hlo hhi
  obtain ⟨k, hk⟩ := exists_step_eq_access hp hh
  rw [hk]
  refine ⟨access_of_width_ne k, ?_⟩
  rintro rfl hmis
  exact access_of_misaligned (s := { s with pending := rest }) k hlo hhi hmis

/-- Settles O17: each supported step is performed, so that a run of as many steps ends with none waiting. -/
theorem supportedProgramsRunToTheirEnd : Obligations.SupportedProgramsRunToTheirEnd := by
  unfold Obligations.SupportedProgramsRunToTheirEnd
  exact fun prog s hw => exists_run_next_of_wf prog { s with pending := prog } rfl hw

/-- Settles O6: a 64-bit write at the base is a write of `CMD`. -/
theorem stepRunsDecodedCommand : Obligations.StepRunsDecodedCommand := by
  unfold Obligations.StepRunsDecodedCommand
  exact fun _ _ _ _ => step_write_cmd

/-- Settles O12: a reset replaces every piece of the block's state, from any state. -/
theorem resetSetsEveryPieceOfState : Obligations.ResetSetsEveryPieceOfState := by
  unfold Obligations.ResetSetsEveryPieceOfState
  exact ⟨afterReset_blockReset State.reset, fun s rest hp => ⟨_, step_reset hp, afterReset_blockReset _, rfl⟩⟩

/-- Settles O15: with an empty list the step is the idle one. -/
theorem idleBlockHoldsItsState : Obligations.IdleBlockHoldsItsState := by
  unfold Obligations.IdleBlockHoldsItsState
  exact fun _ => step_nil

end Sys2Proof.Machine

/-! PROOF. The pseudo-instruction `loadbits` (30_encoding.md R92): one step for each of its host writes, the three steps
that set one bit, and the buffer after all of them. -/

namespace Sys2Proof.Machine

open Sys2Proof.Spec

/-! ### One host write of a program -/

section write

variable {s : State} {rest : List HostStep}

theorem step_wr_arg {k : Fin 5} {v : Word} (hp : s.pending = wr s.params (.arg k) v :: rest) :
    step s = .next { s with pending := rest, a := s.a.set k v } :=
  step_write_slot (sl := .arg k) hp

theorem step_cmdStep {i : Instr} (hp : s.pending = cmdStep s.params i :: rest) :
    step s = exec i { s with cmd := encode i, pending := rest } :=
  step_write_cmd hp (decode_encode i)

end write

/-! ### What the steps of `loadbits` keep -/

/-- All but the buffers, `A0`, `A1`, `CMD`, `STATUS` and the host's list is as it was. -/
def LoadFrame (s t : State) : Prop :=
  t.r = s.r ∧ t.lfsr = s.lfsr ∧ t.cv = s.cv ∧ t.observed = s.observed ∧ t.params = s.params ∧
    ∀ k : Fin 5, 2 ≤ k.val → t.a[k] = s.a[k]

theorem LoadFrame.refl (s : State) : LoadFrame s s := ⟨rfl, rfl, rfl, rfl, rfl, fun _ _ => rfl⟩

theorem LoadFrame.trans {s t x : State} (h : LoadFrame s t) (h' : LoadFrame t x) : LoadFrame s x := by
  obtain ⟨hr, hlfsr, hcv, hobs, hparams, ha⟩ := h
  obtain ⟨hr', hlfsr', hcv', hobs', hparams', ha'⟩ := h'
  exact ⟨hr'.trans hr, hlfsr'.trans hlfsr, hcv'.trans hcv, hobs'.trans hobs, hparams'.trans hparams,
    fun k hk => (ha' k hk).trans (ha k hk)⟩

/-- The state after the two steps that allocate the buffer. -/
def loadAllocated (s : State) (bd : BufIx) (n : Nat) (rest : List HostStep) : State :=
  { s with a := s.a.set 0 (zext64 n), cmd := encode (.bnew bd), pending := rest,
           status := { err := .ok, fault := s.status.fault }, buf := s.buf.set bd (some (List.replicate n false)) }

/-- The state after the three steps that set position `i`. -/
def loadBitSet (s : State) (bd : BufIx) (bits : BitSeq) (i : Nat) (rest : List HostStep) : State :=
  { s with a := (s.a.set 0 (zext64 i)).set 1 1, cmd := encode (.bset bd), pending := rest,
           status := { err := .ok, fault := s.status.fault }, buf := s.buf.set bd (some (bits.set i true)) }

theorem loadFrame_loadAllocated (s : State) (bd : BufIx) (n : Nat) (rest : List HostStep) :
    LoadFrame s (loadAllocated s bd n rest) := by
  refine ⟨rfl, rfl, rfl, rfl, rfl, fun k hk => vector_get_set_ne _ _ (i := 0) ?_⟩
  rintro rfl
  exact absurd hk (by decide)

theorem loadFrame_loadBitSet (s : State) (bd : BufIx) (bits : BitSeq) (i : Nat) (rest : List HostStep) :
    LoadFrame s (loadBitSet s bd bits i rest) := by
  refine ⟨rfl, rfl, rfl, rfl, rfl, fun k hk => ?_⟩
  have h0 : (0 : Fin 5) ≠ k := by rintro rfl; exact absurd hk (by decide)
  have h1 : (1 : Fin 5) ≠ k := by rintro rfl; exact absurd hk (by decide)
  exact (vector_get_set_ne _ _ h1).trans (vector_get_set_ne _ _ h0)

/-! ### The steps -/

section steps

variable {s : State} {bd : BufIx} {rest : List HostStep}

/-- A length within `2^31` is read back from its register unchanged, signed as well. -/
theorem toInt_zext64_of_le {n : Nat} (h : n ≤ 2 ^ 31) : (zext64 n).toInt = n := by
  rw [zext64, ← BitVec.ofInt_natCast]
  exact BitVec.toInt_ofInt_eq_self (by decide) (by omega) (by omega)

/-- The step of a BNEW with a legal length in `A0`. -/
theorem step_bnew {n : Nat} (hp : s.pending = cmdStep s.params (.bnew bd) :: rest) (ha : s.a[0].toInt = n)
    (h1 : 1 ≤ n) (hn : n ≤ s.params.maxLen) :
    step s = .next { completed s with
      cmd := encode (.bnew bd), pending := rest, buf := s.buf.set bd (some (List.replicate n false)) } := by
  rw [step_cmdStep hp]
  exact exec_bnew_of_legal (s := { s with cmd := encode (.bnew bd), pending := rest }) ha h1 hn

/-- The step of a BSET with a position of the sequence in `A0` and a 1 in `A1`. -/
theorem step_bset {bits : BitSeq} {i : Nat} (hp : s.pending = cmdStep s.params (.bset bd) :: rest)
    (hb : s.buf[bd] = some bits) (ha : s.a[0].toNat = i) (hi : i < bits.length) (hv : s.a[1] = 1) :
    step s = .next { completed s with
      cmd := encode (.bset bd), pending := rest, buf := s.buf.set bd (some (bits.set i true)) } := by
  subst ha
  rw [step_cmdStep hp]
  exact exec_bset_of_lt (s := { s with cmd := encode (.bset bd), pending := rest }) (v := true) hb hi hv

/-- `wr A0, n` and `BNEW` allocate `n` zeros. -/
theorem run_loadAllocated {n : Nat}
    (hp : s.pending = wr s.params (.arg 0) (zext64 n) :: cmdStep s.params (.bnew bd) :: rest) (h1 : 1 ≤ n)
    (hn : n ≤ s.params.maxLen) (hmax : s.params.maxLen ≤ 2 ^ 31) (k : Nat) :
    Host.Core.run Sys2Proof.core (k + 2) s = Host.Core.run Sys2Proof.core k (loadAllocated s bd n rest) := by
  have h0 : (s.a.set 0 (zext64 n))[0].toInt = n := by
    rw [Vector.getElem_set_self, toInt_zext64_of_le (hn.trans hmax)]
  rw [core_run_succ (step_wr_arg hp)]
  exact core_run_succ (step_bnew (s := { s with pending := _, a := s.a.set 0 (zext64 n) }) rfl h0 h1 hn) k

/-- `wr A0, i`, `wr A1, 1` and `BSET` write a 1 at position `i`. -/
theorem run_loadBitSet {bits : BitSeq} {i : Nat} (hp : s.pending = setBitSteps s.params bd i ++ rest)
    (hb : s.buf[bd] = some bits) (hi : i < bits.length) (hlen : bits.length ≤ 2 ^ 31) (k : Nat) :
    Host.Core.run Sys2Proof.core (k + 3) s = Host.Core.run Sys2Proof.core k (loadBitSet s bd bits i rest) := by
  have hpos : (zext64 i).toNat = i := toNat_ofNat_of_le (by omega)
  have h0 : ((s.a.set 0 (zext64 i)).set 1 1)[0].toNat = i := by simp [hpos]
  have hset := step_bset (s := { s with pending := cmdStep s.params (.bset bd) :: rest,
                                        a := (s.a.set 0 (zext64 i)).set 1 1 })
    rfl hb h0 hi (Vector.getElem_set_self _)
  calc Host.Core.run Sys2Proof.core (k + 3) s
    _ = Host.Core.run Sys2Proof.core (k + 2) _ := core_run_succ (step_wr_arg hp) _
    _ = Host.Core.run Sys2Proof.core (k + 1) _ :=
      core_run_succ (step_wr_arg (s := { s with pending := _, a := s.a.set 0 (zext64 i) }) rfl) _
    _ = Host.Core.run Sys2Proof.core k _ := core_run_succ hset k

end steps

/-! ### The steps that set the 1s -/

theorem setOnes_cons_false (p : Params) (bd : BufIx) (i : Nat) (bs : BitSeq) :
    setOnes p bd i (false :: bs) = setOnes p bd (i + 1) bs := rfl

theorem setOnes_cons_true (p : Params) (bd : BufIx) (i : Nat) (bs : BitSeq) :
    setOnes p bd i (true :: bs) = setBitSteps p bd i ++ setOnes p bd (i + 1) bs := rfl

/-- Position `pre.length` of zeros after `pre`, set to 1. -/
theorem set_append_replicate (pre : BitSeq) (n : Nat) :
    (pre ++ List.replicate (n + 1) false).set pre.length true = pre ++ [true] ++ List.replicate n false := by
  simp [List.replicate_succ]

/-- With the first positions in place and zeros after them, the steps left fill in the rest of the sequence. -/
theorem exists_run_setOnes (bd : BufIx) (bs pre : BitSeq) (s : State)
    (hp : s.pending = setOnes s.params bd pre.length bs)
    (hb : s.buf[bd] = some (pre ++ List.replicate bs.length false)) (hlen : pre.length + bs.length ≤ 2 ^ 31)
    (hok : s.status.err = .ok) :
    ∃ t, Host.Core.run Sys2Proof.core (setOnes s.params bd pre.length bs).length s = .next t ∧
      t.buf = s.buf.set bd (some (pre ++ bs)) ∧ t.status = s.status ∧ t.pending = [] ∧ LoadFrame s t := by
  induction bs generalizing pre s with
  | nil =>
    refine ⟨s, rfl, ?_, rfl, hp, .refl s⟩
    have hpre : s.buf[bd] = some (pre ++ []) := hb
    rw [← hpre, vector_set_get_self]
  | cons b bs ih =>
    rw [List.length_cons] at hb hlen
    cases b with
    | false =>
      have hpre : pre ++ false :: bs = pre ++ [false] ++ bs := by simp
      have hnext : pre.length + 1 = (pre ++ [false]).length := by simp
      rw [setOnes_cons_false, hnext] at hp ⊢
      rw [hpre]
      refine ih (pre ++ [false]) s hp ?_ (by omega) hok
      rw [hb, List.replicate_succ, List.append_assoc, List.singleton_append]
    | true =>
      have hpre : pre ++ true :: bs = pre ++ [true] ++ bs := by simp
      have hnext : pre.length + 1 = (pre ++ [true]).length := by simp
      rw [setOnes_cons_true] at hp ⊢
      have hrun := run_loadBitSet hp hb (by simp) (by simp; omega)
      obtain ⟨t, ht, htbuf, htstatus, htpending, hframe⟩ := ih (pre ++ [true])
        (loadBitSet s bd (pre ++ List.replicate (bs.length + 1) false) pre.length
          (setOnes s.params bd (pre.length + 1) bs)) (by rw [← hnext]; rfl)
        ((vector_get_set_self _ _ _).trans (congrArg some (set_append_replicate pre bs.length))) (by omega) rfl
      refine ⟨t, ?_, ?_, ?_, htpending, (loadFrame_loadBitSet ..).trans hframe⟩
      · rw [List.length_append, Nat.add_comm]
        rw [← hnext] at ht
        exact (hrun _).trans ht
      · rw [htbuf, hpre]
        exact Vector.set_set ..
      · rw [htstatus, loadBitSet, ← hok]

/-! ### The statement -/

/-- Settles O59: after the allocation every position holds 0, and each later group of steps puts one 1 in place. -/
theorem loadbitsLeavesSequence : Obligations.LoadbitsLeavesSequence := by
  unfold Obligations.LoadbitsLeavesSequence
  intro s bd x hwf hne hlen
  have hmax := Params.maxLen_le_of_wf hwf
  have hpos : 1 ≤ x.length := List.length_pos_iff.2 hne
  have hrun := run_loadAllocated (s := { s with pending := loadbitsSteps s.params bd x }) (bd := bd) rfl hpos hlen hmax
  obtain ⟨t, ht, hbuf, hstatus, hpending, hframe⟩ := exists_run_setOnes bd x []
    (loadAllocated { s with pending := loadbitsSteps s.params bd x } bd x.length (setOnes s.params bd 0 x)) rfl
    (vector_get_set_self _ _ _) (by simp; omega) rfl
  obtain ⟨hr, hlfsr, hcv, hobs, hparams, ha⟩ := (loadFrame_loadAllocated ..).trans hframe
  refine ⟨t, (hrun _).trans ht, ?_, hstatus, hr, hlfsr, hcv, hobs, hparams, hpending, ha⟩
  rw [hbuf]
  exact Vector.set_set ..

end Sys2Proof.Machine

/-! PROOF. The stored state is observable (10_state.md R36): BLEN and BGET read every buffer, LRD every field of a unit,
MAXOFF and CVRD every field of the correlation vector. -/

namespace Sys2Proof.Machine

open Sys2Proof.Spec

/-- Every command, with every argument, reports on the two states the same code and, where it completes, the same named
result registers. -/
def ObservedAlike (s s' : State) : Prop :=
  ∀ (i : Instr) (a : Vector Word 5) (t t' : State), exec i { s with a := a } = .next t →
    exec i { s' with a := a } = .next t' →
      t.status.err = t'.status.err ∧ (t.status.err = .ok → ∀ k ∈ writes i, t.r[k] = t'.r[k])

theorem ObservedAlike.symm {s s' : State} (h : ObservedAlike s s') : ObservedAlike s' s := by
  intro i a t t' ht ht'
  obtain ⟨herr, hr⟩ := h i a t' t ht' ht
  exact ⟨herr.symm, fun hok k hk => (hr (herr.trans hok) k hk).symm⟩

/-- A command that completes on one of two states observed alike completes on the other. -/
theorem ObservedAlike.completes {s s' : State} (h : ObservedAlike s s') {i : Instr} {a : Vector Word 5}
    (hc : Completes i { s with a := a }) : Completes i { s' with a := a } := by
  obtain ⟨t', ht'⟩ := exists_exec_next i { s' with a := a }
  obtain ⟨herr, -⟩ := h i a _ t' (exec_eq_completed hc) ht'
  exact completes_of_next_ok ht' herr.symm

/-! ### Numbers read back from a register -/

theorem bitWord_injective : Function.Injective bitWord := by decide

theorem eq_of_ofNat_eq {m n : Nat} (hm : m ≤ 2 ^ 31) (hn : n ≤ 2 ^ 31) (h : BitVec.ofNat 64 m = BitVec.ofNat 64 n) :
    m = n := by
  rw [← toNat_ofNat_of_le hm, h, toNat_ofNat_of_le hn]

theorem eq_of_ofInt_eq {x y : Int} {n : Nat} (hn : n ≤ 2 ^ 31) (hx : |x| ≤ n) (hy : |y| ≤ n)
    (h : BitVec.ofInt 64 x = BitVec.ofInt 64 y) : x = y := by
  rw [← (toInt_ofInt_of_abs_le hn hx).1, h, (toInt_ofInt_of_abs_le hn hy).1]

/-! ### Records field by field -/

theorem LfsrUnit.eq_of_fields {x y : LfsrUnit} (hcfg : x.cfg = y.cfg) (hstate : x.state = y.state)
    (htaps : x.taps = y.taps) (hwidth : x.width = y.width) : x = y := by
  cases x
  cases y
  exact (LfsrUnit.mk.injEq ..).mpr ⟨hcfg, hstate, htaps, hwidth⟩

theorem CorrVector.eq_of_fields {x y : CorrVector} (hvalid : x.valid = y.valid) (hlen : x.len = y.len)
    (hden : x.den = y.den) (hval : x.val = y.val) : x = y := by
  cases x
  cases y
  exact (CorrVector.mk.injEq ..).mpr ⟨hvalid, hlen, hden, hval⟩

theorem State.Inv.cv {s : State} (h : s.Inv) : CorrVector.Inv s.params.maxLen s.cv := h.2.2.2.1

section observers

variable {s s' : State} (h : ObservedAlike s s') (hs : s.Inv) (hs' : s'.Inv)

include h hs hs'

/-! ### Buffers -/

/-- BLEN finds the second buffer allocated with the same length, and BGET every bit of it. -/
theorem ObservedAlike.buf_of_some {b : BufIx} {x : BitSeq} (hb : s.buf[b] = some x) : s'.buf[b] = some x := by
  obtain ⟨y, hb'⟩ : ∃ y, s'.buf[b] = some y := h.completes (i := .blen b) (a := s.a) ⟨x, hb⟩
  obtain ⟨-, hx⟩ := hs.length_bounds hb
  obtain ⟨-, hy⟩ := hs'.length_bounds hb'
  have hlen : x.length = y.length := by
    obtain ⟨-, hr⟩ := h (.blen b) s.a _ _ (exec_blen_of_some hb) (exec_blen_of_some hb')
    have h0 := hr rfl 0 (by simp [writes])
    exact eq_of_ofNat_eq hx hy (by simpa using h0)
  rw [hb', Option.some_inj]
  refine List.ext_getElem hlen.symm fun j hjy hjx => ?_
  obtain ⟨t, ht, hok, hbit⟩ := exec_bget_at hb hx hjx
  obtain ⟨t', ht', -, hbit'⟩ := exec_bget_at (s := { s' with a := s.a }) hb' hy hjy
  obtain ⟨-, hr⟩ := h (.bget b) _ t t' ht ht'
  have h0 : t.r[0] = t'.r[0] := hr hok 0 (by simp [writes])
  rw [hbit, hbit', ← bitWord_eq_ite, ← bitWord_eq_ite] at h0
  exact (bitWord_injective h0).symm

/-! ### Units -/

/-- LRD reads every field of a configured unit. -/
theorem ObservedAlike.unit_of_cfg {u : UnitIx} (hc : s.lfsr[u].cfg = true) : s.lfsr[u] = s'.lfsr[u] := by
  have hc' : s'.lfsr[u].cfg = true := h.completes (i := .lrd u) (a := s.a) hc
  obtain ⟨-, hr⟩ := h (.lrd u) s.a _ _ (exec_lrd_of_cfg hc) (exec_lrd_of_cfg hc')
  have hstate : s.lfsr[u].state = s'.lfsr[u].state := hr rfl 0 (by simp [writes])
  have htaps : s.lfsr[u].taps = s'.lfsr[u].taps := hr rfl 1 (by simp [writes])
  have hword : BitVec.ofNat 64 s.lfsr[u].width = BitVec.ofNat 64 s'.lfsr[u].width := hr rfl 2 (by simp [writes])
  obtain ⟨-, hw, -⟩ := (hs.unit u).1 hc
  obtain ⟨-, hw', -⟩ := (hs'.unit u).1 hc'
  have hwidth := eq_of_ofNat_eq (by omega) (by omega) hword
  exact LfsrUnit.eq_of_fields (hc.trans hc'.symm) hstate htaps hwidth

/-! ### The correlation vector -/

/-- MAXOFF reads the length and the denominator of a valid vector, and CVRD each of its entries. -/
theorem ObservedAlike.cv_of_valid (hv : s.cv.valid = true) : s.cv = s'.cv := by
  have hv' : s'.cv.valid = true := h.completes (i := .maxoff) (a := s.a) hv
  obtain ⟨-, hle, hden, hval, -, hbounds⟩ := hs.cv_bounds hv
  obtain ⟨-, hle', hden', hval', -, hbounds'⟩ := hs'.cv_bounds hv'
  have hlen : s.cv.len = s'.cv.len := by
    obtain ⟨-, hr⟩ := h .maxoff s.a _ _ (exec_maxoff_of_valid hv) (exec_maxoff_of_valid hv')
    exact eq_of_ofNat_eq hle hle' (hr rfl 2 (by simp [writes]))
  refine CorrVector.eq_of_fields (hv.trans hv'.symm) hlen (by omega) (List.ext_getElem (by omega) fun j hj hj' => ?_)
  have hpos : (BitVec.ofNat 64 j).toNat = j := toNat_ofNat_of_le (by omega)
  have ha : (Vector.replicate 5 (BitVec.ofNat 64 j))[0].toNat = j := by rw [Vector.getElem_replicate, hpos]
  have hlt : (Vector.replicate 5 (BitVec.ofNat 64 j))[0].toNat < s.cv.len := by omega
  obtain ⟨-, hr⟩ := h .cvrd (Vector.replicate 5 (BitVec.ofNat 64 j)) _ _
    (exec_cvrd_of_entry hv hlt (by rw [ha]; exact List.getElem?_eq_getElem hj))
    (exec_cvrd_of_entry hv' (hlt.trans_eq hlen) (by rw [ha]; exact List.getElem?_eq_getElem hj'))
  have hword : BitVec.ofInt 64 s.cv.val[j] = BitVec.ofInt 64 s'.cv.val[j] := hr rfl 0 (by simp [writes])
  exact eq_of_ofInt_eq hle (abs_le.2 (hbounds _ (List.getElem_mem hj)))
    (by rw [hlen]; exact abs_le.2 (hbounds' _ (List.getElem_mem hj'))) hword

end observers

/-! ### Storage that holds nothing -/

theorem LfsrUnit.Inv.eq_reset {x : LfsrUnit} (hx : LfsrUnit.Inv x) (hc : x.cfg = false) : x = LfsrUnit.reset := by
  obtain ⟨hst, htaps, hw⟩ := hx.2 hc
  exact LfsrUnit.eq_of_fields hc hst htaps hw

theorem CorrVector.Inv.eq_reset {n : Nat} {v : CorrVector} (hx : CorrVector.Inv n v) (hv : v.valid = false) :
    v = CorrVector.reset := by
  obtain ⟨hlen, hden, hval⟩ := hx.2 hv
  exact CorrVector.eq_of_fields hv hlen hden hval

/-! ### The statement -/

/-- Settles O28: what holds a value in either state is read out of both, and what holds none in both is all 0. -/
theorem storedStateIsObservable : Obligations.StoredStateIsObservable := by
  unfold Obligations.StoredStateIsObservable
  intro s s' hs hs' (h : ObservedAlike s s')
  refine ⟨vector_ext_fin fun b => Option.ext fun x => ⟨h.buf_of_some hs hs', h.symm.buf_of_some hs' hs⟩,
    vector_ext_fin fun u => ?_, ?_⟩
  · by_cases hc : s.lfsr[u].cfg = true
    · exact h.unit_of_cfg hs hs' hc
    by_cases hc' : s'.lfsr[u].cfg = true
    · exact (h.symm.unit_of_cfg hs' hs hc').symm
    rw [(hs.unit u).eq_reset (Bool.eq_false_of_not_eq_true hc),
      (hs'.unit u).eq_reset (Bool.eq_false_of_not_eq_true hc')]
  · by_cases hv : s.cv.valid = true
    · exact h.cv_of_valid hs hs' hv
    by_cases hv' : s'.cv.valid = true
    · exact (h.symm.cv_of_valid hs' hs hv').symm
    rw [hs.cv.eq_reset (Bool.eq_false_of_not_eq_true hv), hs'.cv.eq_reset (Bool.eq_false_of_not_eq_true hv')]

end Sys2Proof.Machine

/-! PROOF. The output of repeated LSHIFT (41_lfsr.md R127): the bits of a state are the outputs before it, two units
that agree below their taps return the same bits whatever their widths, and a unit as wide as its taps is invertible, so
that its output is periodic from the first bit on. -/

namespace Sys2Proof.Machine

open Sys2Proof.Spec

/-! ### A state as the bits that have entered it -/

/-- Before the `t`-th shift bit `k` is the feedback of shift `t - 1 - k`, or the seed bit that has moved there. -/
theorem stateAt_getLsbD {seed taps : Word} {w : Nat} (h64 : w ≤ 64) (t : Nat) {k : Nat} (hk : k < w) :
    (stateAt seed taps w t).getLsbD k =
      if k < t then xorTaps (stateAt seed taps w (t - 1 - k)) taps else seed.getLsbD (k - t) := by
  induction t generalizing k with
  | zero => rfl
  | succ t ih =>
    rw [stateAt, nextState_getLsbD, decide_eq_true (by omega : k < 64), decide_eq_true hk, Bool.true_and, Bool.true_and]
    cases k with
    | zero => simp
    | succ k =>
      have hback : t - (k + 1) = t - 1 - k := by omega
      simp [ih (Nat.lt_of_succ_lt hk), hback]

/-- The feedback reads the bits of a state below any bound of the taps. -/
theorem xorTaps_eq_foldl_of_taps {st taps : Word} {m : Nat} (h64 : m ≤ 64)
    (htaps : ∀ k, m ≤ k → taps.getLsbD k = false) :
    xorTaps st taps = (List.range m).foldl (fun f k => f ^^ (taps.getLsbD k && st.getLsbD k)) false :=
  foldl_xor_cut _ false h64 fun k hk => by rw [htaps k hk, Bool.false_and]

section unit

variable {s : State} {u : UnitIx} (hc : s.lfsr[u].cfg = true) (hinv : LfsrUnit.Inv s.lfsr[u])

include hc hinv

/-- The bounds of a configured unit: its width, and no tap at or above it (10_state.md R33). -/
theorem unit_bounds : s.lfsr[u].width ≤ 64 ∧ ∀ k, s.lfsr[u].width ≤ k → s.lfsr[u].taps.getLsbD k = false := by
  obtain ⟨-, h64, htaps, -⟩ := hinv.1 hc
  exact ⟨h64, (and_not_mask_eq_zero_iff _ _).1 htaps⟩

theorem afterTimes_lshift_getLsbD (t : Nat) {k : Nat} (hk : k < s.lfsr[u].width) :
    (afterTimes (.lshift u) t s).lfsr[u].state.getLsbD k = history u s t k := by
  obtain ⟨h64, -⟩ := unit_bounds hc hinv
  rw [afterTimes_lshift_unit hc, history, outputBit_eq_xorTaps hc, stateAt_getLsbD h64 t hk]

theorem outputBit_eq_foldl_history (t : Nat) :
    outputBit u s t =
      (List.range s.lfsr[u].width).foldl (fun f k => f ^^ (s.lfsr[u].taps.getLsbD k && history u s t k)) false := by
  obtain ⟨h64, htaps⟩ := unit_bounds hc hinv
  rw [outputBit_eq_xorTaps hc, xorTaps_eq_foldl_of_taps h64 htaps]
  refine foldl_xor_congr false fun k hk => ?_
  rw [← afterTimes_lshift_getLsbD hc hinv t hk, afterTimes_lshift_unit hc]

end unit

/-! ### Units of different widths -/

section widths

variable {taps x y : Word} {m w w' : Nat}

/-- States that agree below the bound of the taps still do after a shift each, if both units are at least as wide. -/
theorem stateAt_getLsbD_congr_of_widths (hw : m ≤ w) (hw' : m ≤ w')
    (htaps : ∀ k, m ≤ k → taps.getLsbD k = false) (h : ∀ k, k < m → x.getLsbD k = y.getLsbD k) (j : Nat) :
    ∀ k, k < m → (stateAt x taps w j).getLsbD k = (stateAt y taps w' j).getLsbD k := by
  induction j with
  | zero => exact h
  | succ j ih =>
    intro k hk
    rw [stateAt, stateAt, nextState_getLsbD, nextState_getLsbD, xorTaps_congr_of_low_bits htaps ih,
      decide_eq_true (hk.trans_le hw), decide_eq_true (hk.trans_le hw')]
    cases k with
    | zero => rfl
    | succ k => rw [Nat.add_sub_cancel, ih k (Nat.lt_of_succ_lt hk)]

/-- The feedback bits of two units agree for ever if their states agree below the bound of the taps. A bound above a
width may be lowered to it, since the taps are legal at both widths. -/
theorem xorTaps_stateAt_congr_of_widths (hw : ∀ k, w ≤ k → taps.getLsbD k = false)
    (hw' : ∀ k, w' ≤ k → taps.getLsbD k = false) (htaps : ∀ k, m ≤ k → taps.getLsbD k = false)
    (h : ∀ k, k < m → x.getLsbD k = y.getLsbD k) (j : Nat) :
    xorTaps (stateAt x taps w j) taps = xorTaps (stateAt y taps w' j) taps := by
  have hmin : ∀ k, min m (min w w') ≤ k → taps.getLsbD k = false := by
    intro k hk
    rcases (by omega : m ≤ k ∨ w ≤ k ∨ w' ≤ k) with hk | hk | hk
    · exact htaps k hk
    · exact hw k hk
    · exact hw' k hk
  exact xorTaps_congr_of_low_bits hmin
    (stateAt_getLsbD_congr_of_widths (by omega) (by omega) hmin (fun k hk => h k (by omega)) j)

end widths

/-! ### A unit as wide as its taps -/

theorem stateAt_add (seed taps : Word) (w t p : Nat) :
    stateAt seed taps w (t + p) = stateAt (stateAt seed taps w p) taps w t := by
  induction t with
  | zero => rw [Nat.zero_add, stateAt]
  | succ t ih => rw [Nat.add_right_comm, stateAt, ih, stateAt]

theorem nextState_toNat_lt (st taps : Word) (w : Nat) : (nextState st taps w).toNat < 2 ^ w := by
  rw [nextState, BitVec.toNat_ofNat]
  exact (Nat.mod_le _ _).trans_lt (Nat.mod_lt _ (Nat.two_pow_pos w))

theorem stateAt_toNat_lt {seed : Word} {w : Nat} (h : seed.toNat < 2 ^ w) (taps : Word) (j : Nat) :
    (stateAt seed taps w j).toNat < 2 ^ w := by
  cases j with
  | zero => exact h
  | succ j => exact nextState_toNat_lt _ _ _

section invertible

variable {taps x y : Word} {n : Nat} (h64 : n + 1 ≤ 64) (htop : taps.getLsbD n = true)
  (htaps : ∀ k, n + 1 ≤ k → taps.getLsbD k = false)

include h64 htop htaps

/-- With a tap at the highest bit a shift loses nothing: the bits below are in the next state, and the highest one is
the feedback less theirs. -/
theorem nextState_injective (hx : x.toNat < 2 ^ (n + 1)) (hy : y.toNat < 2 ^ (n + 1))
    (h : nextState x taps (n + 1) = nextState y taps (n + 1)) : x = y := by
  have hbit (k : Nat) (hk : k < n + 1) :
      (if k = 0 then xorTaps x taps else x.getLsbD (k - 1)) =
        if k = 0 then xorTaps y taps else y.getLsbD (k - 1) := by
    have hk' := congrArg (fun v : Word => v.getLsbD k) h
    simpa only [nextState_getLsbD, decide_eq_true (hk.trans_le h64), decide_eq_true hk, Bool.true_and] using hk'
  have hlow (k : Nat) (hk : k < n) : x.getLsbD k = y.getLsbD k := hbit (k + 1) (by omega)
  have hhigh : x.getLsbD n = y.getLsbD n := by
    have hfb : xorTaps x taps = xorTaps y taps := hbit 0 (by omega)
    rw [xorTaps_eq_foldl_of_taps h64 htaps, xorTaps_eq_foldl_of_taps h64 htaps, List.range_succ, List.foldl_append,
      List.foldl_append, foldl_xor_congr (q := fun k => taps.getLsbD k && y.getLsbD k) false
        fun k hk => by rw [hlow k hk]] at hfb
    simpa [htop] using hfb
  refine BitVec.eq_of_getLsbD_eq fun k _ => ?_
  rcases Nat.lt_trichotomy k n with hk | rfl | hk
  · exact hlow k hk
  · exact hhigh
  · rw [(toNat_lt_two_pow_iff x _).1 hx k hk, (toNat_lt_two_pow_iff y _).1 hy k hk]

/-- A state that comes back after `d` shifts from any later state comes back after `d` shifts from the seed. -/
theorem stateAt_eq_seed_of_stateAt_add_eq (hx : x.toNat < 2 ^ (n + 1)) {i d : Nat}
    (h : stateAt x taps (n + 1) (i + d) = stateAt x taps (n + 1) i) : stateAt x taps (n + 1) d = x := by
  induction i with
  | zero => rwa [Nat.zero_add] at h
  | succ i ih =>
    rw [Nat.add_right_comm] at h
    exact ih (nextState_injective h64 htop htaps (stateAt_toNat_lt hx taps _) (stateAt_toNat_lt hx taps _) h)

theorem stateAt_ne_zero (hx : x.toNat < 2 ^ (n + 1)) (h0 : x ≠ 0) (j : Nat) : stateAt x taps (n + 1) j ≠ 0 := by
  induction j with
  | zero => exact h0
  | succ j ih =>
    intro h
    exact ih (nextState_injective h64 htop htaps (stateAt_toNat_lt hx taps j) (Nat.two_pow_pos _)
      (h.trans (nextState_zero taps _).symm))

/-- The `2^m` states from a nonzero seed on are among `2^m - 1` values, so two are equal, and the seed comes back. -/
theorem exists_stateAt_eq_seed (hx : x.toNat < 2 ^ (n + 1)) :
    ∃ p, 1 ≤ p ∧ p ≤ 2 ^ (n + 1) - 1 ∧ stateAt x taps (n + 1) p = x := by
  have hpow : 2 ≤ 2 ^ (n + 1) := by rw [Nat.pow_succ]; have := Nat.two_pow_pos n; omega
  by_cases h0 : x = 0
  · subst h0
    exact ⟨1, le_refl 1, by omega, stateAt_zero_seed taps _ 1⟩
  have hmaps : ∀ i ∈ Finset.range (2 ^ (n + 1)), (stateAt x taps (n + 1) i).toNat ∈ Finset.Ico 1 (2 ^ (n + 1)) := by
    intro i _
    have hne : (stateAt x taps (n + 1) i).toNat ≠ 0 := fun h =>
      stateAt_ne_zero h64 htop htaps hx h0 i (BitVec.eq_of_toNat_eq h)
    exact Finset.mem_Ico.2 ⟨by omega, stateAt_toNat_lt hx taps i⟩
  obtain ⟨i, hi, j, hj, hne, heq⟩ := Finset.exists_ne_map_eq_of_card_lt_of_maps_to
    (by rw [Nat.card_Ico, Finset.card_range]; omega) hmaps
  wlog hij : i < j generalizing i j with hswap
  · exact hswap j hj i hi hne.symm heq.symm (by omega)
  have hj' := Finset.mem_range.1 hj
  refine ⟨j - i, by omega, by omega, stateAt_eq_seed_of_stateAt_add_eq h64 htop htaps hx (i := i) ?_⟩
  rw [Nat.add_sub_cancel' hij.le, BitVec.eq_of_toNat_eq heq]

end invertible

/-! ### The statements -/

/-- Settles O39: each bit of a state entered it as an earlier output or was in the seed, and the output is the feedback
of the state. -/
theorem lshiftOutputRecurrence : Obligations.LshiftOutputRecurrence := by
  unfold Obligations.LshiftOutputRecurrence
  exact fun u s hc hinv t => ⟨fun k => afterTimes_lshift_getLsbD hc hinv t, outputBit_eq_foldl_history hc hinv t⟩

/-- Settles O40: the feedback reads no bit at or above the bound of the taps, and the seed that is 0 there and below
returns 0. -/
theorem lshiftOutputDependsOnLowBits : Obligations.LshiftOutputDependsOnLowBits := by
  unfold Obligations.LshiftOutputDependsOnLowBits
  intro u u' s s' m hc hc' hinv hinv' htaps hbound
  obtain ⟨-, hw⟩ := unit_bounds hc hinv
  obtain ⟨-, hw'⟩ := unit_bounds hc' hinv'
  rw [← htaps] at hw'
  constructor
  · intro hseed t
    rw [outputBit_eq_xorTaps hc, outputBit_eq_xorTaps hc', ← htaps]
    exact xorTaps_stateAt_congr_of_widths hw hw' hbound hseed t
  · intro hseed t
    have hzero : ∀ k, k < m → s.lfsr[u].state.getLsbD k = (0 : Word).getLsbD k := by simpa using hseed
    rw [outputBit_eq_xorTaps hc, xorTaps_stateAt_congr_of_widths hw hw hbound hzero t, stateAt_zero_seed,
      xorTaps_zero]

/-- Settles O41: the output is that of the unit of width `m` with the low `m` bits of the seed, whose state comes back
after at most `2^m - 1` shifts. -/
theorem lshiftOutputPeriod : Obligations.LshiftOutputPeriod := by
  unfold Obligations.LshiftOutputPeriod
  intro u s m hc hinv hm htop hbound
  obtain ⟨n, rfl⟩ := Nat.exists_eq_add_of_le' hm
  rw [Nat.add_sub_cancel] at htop
  obtain ⟨h64, hw⟩ := unit_bounds hc hinv
  have hn : n < s.lfsr[u].width := by
    by_contra hlt
    rw [hw n (by omega)] at htop
    cases htop
  have hlow : (s.lfsr[u].state &&& mask (n + 1)).toNat < 2 ^ (n + 1) :=
    (toNat_lt_two_pow_iff _ _).2 fun k hk => by simp [Nat.not_lt.2 hk]
  have hseed : ∀ k, k < n + 1 → s.lfsr[u].state.getLsbD k = (s.lfsr[u].state &&& mask (n + 1)).getLsbD k := by
    intro k hk
    have hk64 : k < 64 := by omega
    rw [BitVec.getLsbD_and, mask_getLsbD, decide_eq_true hk, decide_eq_true hk64, Bool.and_true, Bool.and_true]
  obtain ⟨p, hp1, hp2, hp⟩ := exists_stateAt_eq_seed (by omega) htop hbound hlow
  refine ⟨p, hp1, hp2, fun t => ?_⟩
  rw [outputBit_eq_xorTaps hc, outputBit_eq_xorTaps hc, xorTaps_stateAt_congr_of_widths hw hbound hbound hseed,
    xorTaps_stateAt_congr_of_widths hw hbound hbound hseed, stateAt_add, hp]

end Sys2Proof.Machine
